-- ==== Sys2Proof/Word.lean ====
section
/-! DEFINITION. The Word of the hardware (R20): an unsigned 16-bit integer, the unit of memory, registers and arithmetic. -/

namespace Sys2Proof

/-- R20: every register and every memory cell holds one Word. An address is a Word too (R50). -/
abbrev Word := BitVec 16

/-- Half a Word. The core never accesses one (R53): the memory list stores a Word as two of them (log 1). -/
abbrev Byte := BitVec 8

end Sys2Proof
end

