-- ==== Sys2Proof/Config.lean ====
section
/-! DEFINITION. The parameters of R6 that have an alternative, at the value R6 gives them, and the free values of a halted core (R246). -/

namespace Sys2Proof

/-- What a skipped unknown extended opcode does (R221, decision D13). -/
inductive SkippedUnknown where
  | skip
  | fault
deriving DecidableEq, Repr

namespace Config

/-- LIT1F_WRITABLE (R6, R114, decision D9): a write through operand code 0x1F reaches the memory word. DESIGN CHOICE of the
spec, unsafe (log 11). -/
def lit1fWritable : Bool := true

/-- UNKNOWN_EXT_UNDER_SKIP (R6, R221, decision D13): a skipped unknown extended opcode does not fault. DESIGN CHOICE of the
spec, unsafe (log 12). -/
def unknownExtUnderSkip : SkippedUnknown := .skip

/-- MEM_WORDS (R6, R50). -/
def memWords : Nat := 65536

/-- Free value (R246, I3; log 4): what 16-bit register number `slot` holds in the `n`-th halted state. -/
opaque haltedWord : (n slot : Nat) → Word

/-- Free value (R246, I3; log 4): the skip flag of the `n`-th halted state. -/
opaque haltedSkip : (n : Nat) → Bool

/-- Free value (R246, I3; log 4): the cycle counter of the `n`-th halted state. -/
opaque haltedCycles : (n : Nat) → Nat

/-- Free value (R246, I3; log 4): the cells of memory of the `n`-th halted state, in no particular order. -/
opaque haltedCells : (n : Nat) → List Host.Cell

end Config
end Sys2Proof
end

