-- ==== Sys2Proof/Syntax.lean ====
section
/-! DEFINITION. The instructions as syntax: one constructor of `Instr` per row of spec/opcode_table.json (R76, R77), over the
operand forms of R72. -/

namespace Sys2Proof

/-- The eight general registers, in index order (R21). -/
inductive Reg where
  | a | b | c | x | y | z | i | j
deriving DecidableEq, Repr

/-- Which operand field of the instruction word (R70): `a` is w[9:4], `b` is w[15:10]. -/
inductive OperandField where
  | a | b
deriving DecidableEq, Repr

/-- The operand forms of the operand-code map (R72). A form that takes a next word does not hold it: the next word is read
from memory when the operand is resolved (R116), because code 0x1F names the cell it stands in (R114). -/
inductive Operand where
  /-- 0x00–0x07, register direct (R104). -/
  | reg (r : Reg)
  /-- 0x08–0x0F, memory at the address held in a register (R105). -/
  | ind (r : Reg)
  /-- 0x10–0x17, memory at next word + register (R106). -/
  | idx (r : Reg)
  /-- 0x18, memory at SP, then SP += 1 (R107). -/
  | pop
  /-- 0x19, memory at SP (R108). -/
  | peek
  /-- 0x1A, SP −= 1, then memory at the new SP (R109). -/
  | push
  /-- 0x1B, SP itself (R110). -/
  | sp
  /-- 0x1C, PC itself (R111). -/
  | pc
  /-- 0x1D, O itself (R112). -/
  | o
  /-- 0x1E, memory at the address given by the next word (R113). -/
  | memNext
  /-- 0x1F, the next word itself, as a location (R114). -/
  | next
  /-- 0x20 + v, short literal v (R115). v = 31 would be code 0x3F, which is illegal (R117): that term is ill-formed. -/
  | lit (v : BitVec 5)
deriving DecidableEq, Repr

/-- R76 and R77: the fifteen basic instructions, on operands a and b, and the one extended instruction, on operand b. -/
inductive Instr where
  | set (a b : Operand)
  | add (a b : Operand)
  | sub (a b : Operand)
  | mul (a b : Operand)
  | div (a b : Operand)
  | mod (a b : Operand)
  | shl (a b : Operand)
  | shr (a b : Operand)
  | and (a b : Operand)
  | bor (a b : Operand)
  | xor (a b : Operand)
  | ife (a b : Operand)
  | ifn (a b : Operand)
  | ifg (a b : Operand)
  | ifb (a b : Operand)
  | jsr (b : Operand)
deriving DecidableEq, Repr

end Sys2Proof
end

