-- ==== Sys2Proof/WellFormed.lean ====
section
/-! DEFINITION. Which instruction terms the hardware has: those whose operands are none of them the illegal code 0x3F (R78, R79). -/

namespace Sys2Proof

/-- R75, R78: short literals stop at SHORT_LITERAL_MAX = 30 (R6). Every other form is legal with every register. -/
def Operand.wf : Operand → Bool
  | .reg _ | .ind _ | .idx _ => true
  | .pop | .peek | .push | .sp | .pc | .o | .memNext | .next => true
  | .lit v => v.toNat ≤ 30

/-- R79: a basic instruction is legal when both its operands are, JSR when its b is. -/
def Instr.wf : Instr → Bool
  | .set a b | .add a b | .sub a b | .mul a b | .div a b | .mod a b => a.wf && b.wf
  | .shl a b | .shr a b | .and a b | .bor a b | .xor a b => a.wf && b.wf
  | .ife a b | .ifn a b | .ifg a b | .ifb a b => a.wf && b.wf
  | .jsr b => b.wf

abbrev Operand.WellFormed (c : Operand) : Prop := c.wf = true

abbrev Instr.WellFormed (i : Instr) : Prop := i.wf = true

end Sys2Proof
end

