-- ==== Sys2Proof/Decode.lean ====
section
/-! DEFINITION. The decoder, total on every word (R84), rejecting by name what R79 calls illegal, and after it the encoder,
written from the same tables (R72, R76, R77, R81). Bit 0 is the least significant bit (R7, decision D3; log 9). -/

namespace Sys2Proof

/-! ## Fields of the instruction word (R70, R142) -/

def opOf (w : Word) : BitVec 4 := w.extractLsb' 0 4

def aOf (w : Word) : BitVec 6 := w.extractLsb' 4 6

def bOf (w : Word) : BitVec 6 := w.extractLsb' 10 6

/-! ## Operand codes -/

/-- R21: the register of an index, and none for an index that is not 0 to 7. -/
def Reg.ofIndex : Nat → Option Reg
  | 0 => some .a
  | 1 => some .b
  | 2 => some .c
  | 3 => some .x
  | 4 => some .y
  | 5 => some .z
  | 6 => some .i
  | 7 => some .j
  | _ => none

/-- R72: the operand form of a 6-bit operand code; none for 0x3F, the one code outside the map (R78). The index of
0x10–0x17 is code − 0x10 (conflict C4; log 18). -/
def Operand.ofCode (c : BitVec 6) : Option Operand :=
  let n := c.toNat
  if n ≤ 0x07 then (Reg.ofIndex n).map .reg
  else if n ≤ 0x0F then (Reg.ofIndex (n - 0x08)).map .ind
  else if n ≤ 0x17 then (Reg.ofIndex (n - 0x10)).map .idx
  else if n = 0x18 then some .pop
  else if n = 0x19 then some .peek
  else if n = 0x1A then some .push
  else if n = 0x1B then some .sp
  else if n = 0x1C then some .pc
  else if n = 0x1D then some .o
  else if n = 0x1E then some .memNext
  else if n = 0x1F then some .next
  else if n ≤ 0x3E then some (.lit (BitVec.ofNat 5 (n - 0x20)))
  else none

/-! ## Opcodes -/

/-- R76: the basic instruction of an opcode; none for 0, the escape to the extended format (R71). The numbers rest on
decision D4 (PRESUMED, log 9). -/
def basicOf (op : BitVec 4) : Option (Operand → Operand → Instr) :=
  match op.toNat with
  | 0x1 => some .set
  | 0x2 => some .add
  | 0x3 => some .sub
  | 0x4 => some .mul
  | 0x5 => some .div
  | 0x6 => some .mod
  | 0x7 => some .shl
  | 0x8 => some .shr
  | 0x9 => some .and
  | 0xA => some .bor
  | 0xB => some .xor
  | 0xC => some .ife
  | 0xD => some .ifn
  | 0xE => some .ifg
  | 0xF => some .ifb
  | _ => none

/-- R77: the extended instruction of an extended opcode. -/
def extendedOf (xop : BitVec 6) : Option (Operand → Instr) :=
  match xop.toNat with
  | 0x01 => some .jsr
  | _ => none

/-- Why a word is no instruction (R79). -/
inductive Reject where
  /-- R78: the operand code 0x3F in a field that is resolved. -/
  | invalidOperand (field : OperandField) (code : BitVec 6)
  /-- R221: an extended opcode with no handler. Its operand b is legal, and is still resolved. -/
  | unknownOpcode (xop : BitVec 6) (b : Operand)
deriving DecidableEq, Repr

/-- R71, R77: a word with opcode 0. Its a field is no operand. An illegal b comes before the unknown opcode (R247). -/
def decodeExtended (xop bc : BitVec 6) : Except Reject Instr :=
  match Operand.ofCode bc with
  | none => .error (.invalidOperand .b bc)
  | some b =>
    match extendedOf xop with
    | some mk => .ok (mk b)
    | none => .error (.unknownOpcode xop b)

/-- R70: a word with a basic opcode. An illegal a comes before an illegal b (R247). -/
def decodeBasic (mk : Operand → Operand → Instr) (ac bc : BitVec 6) : Except Reject Instr :=
  match Operand.ofCode ac with
  | none => .error (.invalidOperand .a ac)
  | some a =>
    match Operand.ofCode bc with
    | none => .error (.invalidOperand .b bc)
    | some b => .ok (mk a b)

/-- R84: every word is exactly one of a basic instruction, JSR, an unknown extended opcode, or a word with an illegal
operand code. The instruction word alone decides (R73). -/
def decode (w : Word) : Except Reject Instr :=
  match basicOf (opOf w) with
  | some mk => decodeBasic mk (aOf w) (bOf w)
  | none => decodeExtended (aOf w) (bOf w)

/-! ## Length -/

/-- R73: whether an operand form takes a next word. -/
def Operand.nextWords : Operand → Nat
  | .idx _ | .memNext | .next => 1
  | .reg _ | .ind _ | .pop | .peek | .push | .sp | .pc | .o | .lit _ => 0

/-- R73: the length of an instruction in Words. -/
def Instr.length : Instr → Nat
  | .set a b | .add a b | .sub a b | .mul a b | .div a b | .mod a b => 1 + a.nextWords + b.nextWords
  | .shl a b | .shr a b | .and a b | .bor a b | .xor a b => 1 + a.nextWords + b.nextWords
  | .ife a b | .ifn a b | .ifg a b | .ifb a b => 1 + a.nextWords + b.nextWords
  | .jsr b => 1 + b.nextWords

/-! ## Encoder -/

/-- R81: (b << 10) | (a << 4) | op, as a concatenation. -/
def packWord (op : BitVec 4) (ac bc : BitVec 6) : Word := bc ++ ac ++ op

/-- R21. -/
def Reg.index : Reg → Nat
  | .a => 0
  | .b => 1
  | .c => 2
  | .x => 3
  | .y => 4
  | .z => 5
  | .i => 6
  | .j => 7

/-- R72: the operand code of an operand form. -/
def Operand.code : Operand → BitVec 6
  | .reg r => BitVec.ofNat 6 (0x00 + r.index)
  | .ind r => BitVec.ofNat 6 (0x08 + r.index)
  | .idx r => BitVec.ofNat 6 (0x10 + r.index)
  | .pop => 0x18
  | .peek => 0x19
  | .push => 0x1A
  | .sp => 0x1B
  | .pc => 0x1C
  | .o => 0x1D
  | .memNext => 0x1E
  | .next => 0x1F
  | .lit v => BitVec.ofNat 6 (0x20 + v.toNat)

/-- R76, R77, R81: the instruction word. The next words that follow it in memory (R74) are no part of the instruction
term: the word fixes how many there are (`Instr.length`) and every value is legal. -/
def encode : Instr → Word
  | .set a b => packWord 0x1 a.code b.code
  | .add a b => packWord 0x2 a.code b.code
  | .sub a b => packWord 0x3 a.code b.code
  | .mul a b => packWord 0x4 a.code b.code
  | .div a b => packWord 0x5 a.code b.code
  | .mod a b => packWord 0x6 a.code b.code
  | .shl a b => packWord 0x7 a.code b.code
  | .shr a b => packWord 0x8 a.code b.code
  | .and a b => packWord 0x9 a.code b.code
  | .bor a b => packWord 0xA a.code b.code
  | .xor a b => packWord 0xB a.code b.code
  | .ife a b => packWord 0xC a.code b.code
  | .ifn a b => packWord 0xD a.code b.code
  | .ifg a b => packWord 0xE a.code b.code
  | .ifb a b => packWord 0xF a.code b.code
  | .jsr b => packWord 0x0 0x01 b.code

/-! ## The opcode table's numbering -/

/-- Word number k (0 first) of an instruction whose bits are w, nbits of them given and the rest 0 (log 8). -/
def tableWord (nbits w k : Nat) : Word := BitVec.ofNat 16 (w % 2 ^ nbits / 65536 ^ k)

/-- The instruction the decoder reads from an instruction whose bits are w, numbered as spec/opcode_table.json numbers
them. The first word decides (R73). -/
def decodeTableWord (nbits w : Nat) : Option Instr :=
  match decode (tableWord nbits w 0) with
  | .ok i => some i
  | .error _ => none

end Sys2Proof
end

