-- ==== Sys2Proof/Machine/State.lean ====
section
/-! DEFINITION. The state of the core as plain data, everything R20 to R36 and R245 give it, the reasons a step can stop, and the
state right after construction (R35). -/

namespace Sys2Proof.Machine

/-- R21: the general registers. There is one file, with no banks (R23). -/
structure RegFile where
  a : Word
  b : Word
  c : Word
  x : Word
  y : Word
  z : Word
  i : Word
  j : Word
deriving DecidableEq, Repr

/-- R50: the one memory, as the list of its bytes that are not 0, addresses rising. The Word at address k stands in the
cells 2k (bits 7 to 0) and 2k + 1 (bits 15 to 8). DESIGN CHOICE, safe: no instruction can tell (R53; log 1). -/
abbrev Memory := List Host.Cell

/-- R35, R65: a byte that the list does not hold reads as 0, because memory is zero at construction (DEDUCED, safe; log 2). -/
def unlistedByte : Byte := 0

/-- The canonical form: addresses rising, inside the memory (R50), and no entry equal to what an unlisted one reads as. -/
abbrev Memory.wf (m : Memory) : Prop :=
  m.Pairwise (fun c d => c.1 < d.1) ∧ ∀ c ∈ m, c.1 < 2 * Config.memWords ∧ c.2 ≠ unlistedByte

/-- R240: the kinds of fault. -/
inductive FaultKind where
  | invalidOperand
  | unknownOpcode
deriving DecidableEq, Repr

/-- R245, the record's field `value`. -/
inductive FaultValue where
  /-- The offending operand code and the field that held it. -/
  | operandCode (field : OperandField) (code : BitVec 6)
  /-- The dispatch key (R80). -/
  | dispatchKey (key : BitVec 8)
deriving DecidableEq, Repr

/-- R245: the record of a fault, field by field (`atAddr` is the record's `at`). -/
structure FaultRecord where
  kind : FaultKind
  atAddr : Word
  word : Word
  op : BitVec 4
  ac : BitVec 6
  bc : BitVec 6
  value : FaultValue
deriving DecidableEq, Repr

/-- R32: the run status. -/
inductive Status where
  | running
  | halted (r : FaultRecord)
deriving DecidableEq, Repr

/-- R34: the whole state. `freeIndex` is the model's own: it numbers the free values of a halted core (log 4). -/
structure State where
  regs : RegFile
  pc : Word
  sp : Word
  o : Word
  skip : Bool
  cycles : Nat
  mem : Memory
  status : Status
  freeIndex : Nat
deriving DecidableEq, Repr

/-- Why a step stops with a fault. Each carries the record of R245, the only thing a claim about a faulted run may rest
on (R246), so that no fault gives a next state: DESIGN CHOICE, safe (log 3). -/
inductive Fault where
  /-- R241: raised while an operand is resolved, in `raise`, by an operand code 0x3F. Safe. -/
  | invalidOperand (r : FaultRecord)
  /-- R242: raised by `runUnknown` for an extended opcode with no handler, when it is not skipped. Safe. -/
  | unknownOpcode (r : FaultRecord)
  /-- R152: raised by `step` on a core that an earlier fault has halted; r is that fault's record, unchanged. Safe. -/
  | halted (r : FaultRecord)
deriving DecidableEq, Repr

/-- Why something asked of the machine is refused. -/
inductive Refusal where
  /-- An instruction that has no meaning in the model yet. Nothing raises it: every instruction has one. Safe. -/
  | notModelled (mnemonic : String)
  /-- R271, decision D21: `load` refuses an image of more than 65536 words. No step raises it. Safe. -/
  | imageTooLong (words : Nat)
deriving DecidableEq, Repr

/-- R35. -/
def RegFile.reset : RegFile := ⟨0, 0, 0, 0, 0, 0, 0, 0⟩

/-- R35, R270: the state at construction. skip, cycles and status by the spec's decisions D8, D7, D14 (log 13, log 3);
freeIndex is DESIGN CHOICE 0, unsafe for a claim that rests on it (log 4). -/
def State.reset : State where
  regs := RegFile.reset
  pc := 0
  sp := 0
  o := 0
  skip := false
  cycles := 0
  mem := []
  status := .running
  freeIndex := 0

end Sys2Proof.Machine
end

