-- ==== Sys2Proof/Machine/Ops.lean ====
section
/-! DEFINITION. The named operations over memory, registers, PC, SP and the cycle counter (R9, R24, R26, R30, R51), and the one
operation that takes a fault (R245). -/

namespace Sys2Proof.Machine

/-! ## Words out of exact arithmetic (R8) -/

/-- R8: v mod 65536, the Euclidean remainder. -/
def trunc16 (v : Int) : Word := BitVec.ofInt 16 v

/-- R8: trunc16 of floor(v / 65536). -/
def hi16 (v : Int) : Word := trunc16 (v / 65536)

/-! ## Memory cells -/

/-- Bits 7 to 0 of a Word. -/
def lowByte (w : Word) : Byte := w.extractLsb' 0 8

/-- Bits 15 to 8 of a Word. -/
def highByte (w : Word) : Byte := w.extractLsb' 8 8

/-- What one cell reads as. -/
def Memory.readByte : Memory → Nat → Byte
  | [], _ => unlistedByte
  | c :: m, k => if c.1 = k then c.2 else Memory.readByte m k

/-- The list without cell k. -/
def Memory.dropByte : Memory → Nat → Memory
  | [], _ => []
  | c :: m, k => if c.1 = k then Memory.dropByte m k else c :: Memory.dropByte m k

/-- The list with cell k put before the first higher address. -/
def Memory.insertByte : Memory → Nat → Byte → Memory
  | [], k, v => [(k, v)]
  | c :: m, k, v => if k < c.1 then (k, v) :: c :: m else c :: Memory.insertByte m k v

/-- Writes one cell and keeps the canonical form: writing what an unlisted cell reads as removes the entry. -/
def Memory.writeByte (m : Memory) (k : Nat) (v : Byte) : Memory :=
  if v = unlistedByte then m.dropByte k else (m.dropByte k).insertByte k v

/-! ## Memory Words (R51) -/

/-- R51: MemRead(addr, 1). -/
def Memory.readWord (m : Memory) (addr : Word) : Word :=
  m.readByte (2 * addr.toNat + 1) ++ m.readByte (2 * addr.toNat)

/-- R51: MemWrite(addr, 1, v). -/
def Memory.writeWord (m : Memory) (addr v : Word) : Memory :=
  (m.writeByte (2 * addr.toNat) (lowByte v)).writeByte (2 * addr.toNat + 1) (highByte v)

/-- R271: the Words of an image, from an address upwards. -/
def Memory.writeImage : Memory → Nat → List Word → Memory
  | m, _, [] => m
  | m, k, v :: img => (m.writeWord (BitVec.ofNat 16 k) v).writeImage (k + 1) img

/-- The canonical memory that holds given cells, each key taken inside the memory. -/
def Memory.ofCells : List Host.Cell → Memory
  | [] => []
  | c :: cs => (Memory.ofCells cs).writeByte (c.1 % (2 * Config.memWords)) c.2

/-! ## General registers (register_file, R21) -/

def RegFile.get (f : RegFile) : Reg → Word
  | .a => f.a
  | .b => f.b
  | .c => f.c
  | .x => f.x
  | .y => f.y
  | .z => f.z
  | .i => f.i
  | .j => f.j

def RegFile.set (f : RegFile) (r : Reg) (v : Word) : RegFile :=
  match r with
  | .a => { f with a := v }
  | .b => { f with b := v }
  | .c => { f with c := v }
  | .x => { f with x := v }
  | .y => { f with y := v }
  | .z => { f with z := v }
  | .i => { f with i := v }
  | .j => { f with j := v }

/-! ## State accessors (R9) -/

/-- R9: x[i]. -/
def State.reg (s : State) (r : Reg) : Word := s.regs.get r

/-- R9: x[i] <- v. -/
def State.setReg (s : State) (r : Reg) (v : Word) : State := { s with regs := s.regs.set r v }

/-- R24: pc <- v. -/
def State.setPc (s : State) (v : Word) : State := { s with pc := v }

/-- R26: sp <- v. -/
def State.setSp (s : State) (v : Word) : State := { s with sp := v }

/-- R28: o <- v. -/
def State.setO (s : State) (v : Word) : State := { s with o := v }

/-- R29: skip <- b. -/
def State.setSkip (s : State) (b : Bool) : State := { s with skip := b }

/-- R30: cycles <- cycles + n; the counter never wraps (decision D7; log 13). -/
def State.addCycles (s : State) (n : Nat) : State := { s with cycles := s.cycles + n }

/-- R51: MemRead(addr, 1). Every Word is a valid address (R50) and a read has no side effect (R57). -/
def State.readMem (s : State) (addr : Word) : Word := s.mem.readWord addr

/-- R51: MemWrite(addr, 1, v). No address is protected (R59). -/
def State.writeMem (s : State) (addr v : Word) : State := { s with mem := s.mem.writeWord addr v }

/-! ## Fetching and the stack -/

/-- R141, R116: the Word that the instruction fetch, or the next-word fetch, reads. -/
def State.wordAtPc (s : State) : Word := s.readMem s.pc

/-- R141, R116: what either fetch changes: PC += 1 modulo 65536 (decision D6; log 10), cycles += 1. -/
def State.advance (s : State) : State := (s.setPc (s.pc + 1)).addCycles 1

/-- R220: sp <- trunc16(sp − 1); MemWrite(sp, 1, v). -/
def State.pushWord (s : State) (v : Word) : State :=
  let s1 := s.setSp (s.sp - 1)
  s1.writeMem s1.sp v

/-- Puts Words at an address and the ones after it, modulo 65536 (R54). -/
def State.placeWords : State → Word → List Word → State
  | s, _, [] => s
  | s, k, v :: ws => (s.writeMem k v).placeWords (k + 1) ws

/-! ## Taking a fault (R245) -/

/-- R245: the record of an InvalidOperand. -/
def invalidOperandRecord (atAddr word : Word) (field : OperandField) (code : BitVec 6) : FaultRecord where
  kind := .invalidOperand
  atAddr := atAddr
  word := word
  op := opOf word
  ac := aOf word
  bc := bOf word
  value := .operandCode field code

/-- R80: the dispatch key of an extended opcode, xop | 0x80. -/
def extendedKey (xop : BitVec 6) : BitVec 8 := xop.setWidth 8 ||| 0x80

/-- R245: the record of an UnknownOpcode. -/
def unknownOpcodeRecord (atAddr word : Word) : FaultRecord where
  kind := .unknownOpcode
  atAddr := atAddr
  word := word
  op := opOf word
  ac := aOf word
  bc := bOf word
  value := .dispatchKey (extendedKey (aOf word))

/-- R240: the fault a record tells of. -/
def FaultRecord.fault (r : FaultRecord) : Fault :=
  match r.kind with
  | .invalidOperand => .invalidOperand r
  | .unknownOpcode => .unknownOpcode r

/-- The record a fault carries. -/
def Fault.record : Fault → FaultRecord
  | .invalidOperand r => r
  | .unknownOpcode r => r
  | .halted r => r

/-- R140, R245: a raise ends the step at once and surfaces the record; no later line of the step runs. It gives no next
state, because no claim may rest on one (R246; log 3). What the core itself holds afterwards is `State.halt`. -/
def raise (r : FaultRecord) : Host.Outcome State Fault Refusal := .fault r.fault

/-- R245, R246: the core after a fault. The status holds the record; every other piece of state is a free value
(I3: any value; log 4). -/
def State.halt (s : State) (r : FaultRecord) : State :=
  let n := s.freeIndex
  { regs :=
      { a := Config.haltedWord n 0, b := Config.haltedWord n 1, c := Config.haltedWord n 2, x := Config.haltedWord n 3,
        y := Config.haltedWord n 4, z := Config.haltedWord n 5, i := Config.haltedWord n 6, j := Config.haltedWord n 7 }
    pc := Config.haltedWord n 8
    sp := Config.haltedWord n 9
    o := Config.haltedWord n 10
    skip := Config.haltedSkip n
    cycles := Config.haltedCycles n
    mem := Memory.ofCells (Config.haltedCells n)
    status := .halted r
    freeIndex := n + 1 }

end Sys2Proof.Machine
end

