-- ==== Sys2Proof/Machine/Operands.lean ====
section
/-! DEFINITION. The addressing_mode_resolver: locations, reading and writing them, and every operand form (R100 to R120). -/

namespace Sys2Proof.Machine

/-- R100: a location. Its index, address or literal is fixed when it is made (R118). -/
inductive Loc where
  | reg (r : Reg)
  | sp
  | pc
  | o
  | mem (addr : Word)
  | lit (v : Word)
deriving DecidableEq, Repr

/-- R101: the value at the moment of the read; no side effect. -/
def State.readLoc (s : State) : Loc → Word
  | .reg r => s.reg r
  | .sp => s.sp
  | .pc => s.pc
  | .o => s.o
  | .mem addr => s.readMem addr
  | .lit v => v

/-- R102: a write to a literal is dropped. -/
def State.writeLoc (s : State) (l : Loc) (v : Word) : State :=
  match l with
  | .reg r => s.setReg r v
  | .sp => s.setSp v
  | .pc => s.setPc v
  | .o => s.setO v
  | .mem addr => s.writeMem addr v
  | .lit _ => s

/-- R103: the resolver. It answers none for the one operand with code 0x3F (R117), and otherwise the location and the
state with the side effects of resolving. -/
def resolve : Operand → State → Option (Loc × State)
  | .reg r, s => some (.reg r, s)
  | .ind r, s => some (.mem (s.reg r), s)
  | .idx r, s => some (.mem (s.wordAtPc + s.reg r), s.advance)
  | .pop, s => some (.mem s.sp, s.setSp (s.sp + 1))
  | .peek, s => some (.mem s.sp, s)
  | .push, s => some (.mem (s.sp - 1), s.setSp (s.sp - 1))
  | .sp, s => some (.sp, s)
  | .pc, s => some (.pc, s)
  | .o, s => some (.o, s)
  | .memNext, s => some (.mem s.wordAtPc, s.advance)
  | .next, s => some (if Config.lit1fWritable then .mem s.pc else .lit s.wordAtPc, s.advance)
  | .lit v, s => if v.toNat ≤ 30 then some (.lit (v.setWidth 16), s) else none

end Sys2Proof.Machine
end

