-- ==== Sys2Proof/Machine/Flags.lean ====
section
/-! DEFINITION. The alu_wrapper: pure functions of the two operand values (R171, R204). They give the result for operand a, the
new O, the order of the two writes, and the skip request. -/

namespace Sys2Proof.Machine

/-- R171, R204: what the alu_wrapper asks the handler to write, in which order (decision D11; log 15). -/
inductive AluOut where
  /-- The result for a, and O is left alone. -/
  | result (r : Word)
  /-- The result for a, then O. -/
  | resultThenO (r o : Word)
  /-- O, then the result for a. -/
  | oThenResult (o r : Word)
  /-- The skip request; no operand and no O is written. -/
  | skipRequest (b : Bool)
deriving DecidableEq, Repr

/-! ## Overflow (R172): the part of the exact result above 16 bits -/

/-- R161: the carry, 0 or 1. -/
def carryOf (va vb : Word) : Word := hi16 ((va.toNat : Int) + vb.toNat)

/-- R162: 0xFFFF on a borrow, else 0 (conflict C1, decision D16; log 17). -/
def borrowOf (va vb : Word) : Word := hi16 ((va.toNat : Int) - vb.toNat)

/-- R163: the high word of the exact product. -/
def highProductOf (va vb : Word) : Word := hi16 ((va.toNat : Int) * vb.toNat)

/-- R164: the binary fraction of the quotient, from the original va; 0 when vb = 0. -/
def fractionOf (va vb : Word) : Word :=
  if vb = 0 then 0 else trunc16 ((va.toNat <<< 16 / vb.toNat : Nat) : Int)

/-- R166: the bits shifted out to the left, exact for every amount (decision D15; log 16). -/
def shiftedOutLeft (va vb : Word) : Word := hi16 ((va.toNat <<< vb.toNat : Nat) : Int)

/-- R167: the bits shifted out to the right, as a 16-bit fraction (decision D15; log 16). -/
def shiftedOutRight (va vb : Word) : Word := trunc16 (((va.toNat <<< 16) >>> vb.toNat : Nat) : Int)

/-! ## The eleven results for operand a (R171) -/

/-- R160. -/
def aluSet (_va vb : Word) : AluOut := .result vb

/-- R161. -/
def aluAdd (va vb : Word) : AluOut := .resultThenO (trunc16 ((va.toNat : Int) + vb.toNat)) (carryOf va vb)

/-- R162. -/
def aluSub (va vb : Word) : AluOut := .resultThenO (trunc16 ((va.toNat : Int) - vb.toNat)) (borrowOf va vb)

/-- R163. -/
def aluMul (va vb : Word) : AluOut := .resultThenO (trunc16 ((va.toNat : Int) * vb.toNat)) (highProductOf va vb)

/-- R164, R243: a zero divisor is no fault. -/
def aluDiv (va vb : Word) : AluOut :=
  .resultThenO (if vb = 0 then 0 else trunc16 ((va.toNat / vb.toNat : Nat) : Int)) (fractionOf va vb)

/-- R165, R243: a zero divisor is no fault, and O is left alone. -/
def aluMod (va vb : Word) : AluOut :=
  .result (if vb = 0 then 0 else trunc16 ((va.toNat % vb.toNat : Nat) : Int))

/-- R166. -/
def aluShl (va vb : Word) : AluOut :=
  .oThenResult (shiftedOutLeft va vb) (trunc16 ((va.toNat <<< vb.toNat : Nat) : Int))

/-- R167: a logical shift. -/
def aluShr (va vb : Word) : AluOut :=
  .oThenResult (shiftedOutRight va vb) (trunc16 ((va.toNat >>> vb.toNat : Nat) : Int))

/-- R168. -/
def aluAnd (va vb : Word) : AluOut := .result (va &&& vb)

/-- R169. -/
def aluBor (va vb : Word) : AluOut := .result (va ||| vb)

/-- R170. -/
def aluXor (va vb : Word) : AluOut := .result (va ^^^ vb)

/-! ## The four skip requests (R204), on unsigned Words -/

/-- R200. -/
def aluIfe (va vb : Word) : AluOut := .skipRequest (va != vb)

/-- R201. -/
def aluIfn (va vb : Word) : AluOut := .skipRequest (va == vb)

/-- R202 (conflict C3; log 17). -/
def aluIfg (va vb : Word) : AluOut := .skipRequest (decide (va.toNat ≤ vb.toNat))

/-- R203 (conflict C2, decision D17; log 17). -/
def aluIfb (va vb : Word) : AluOut := .skipRequest (va &&& vb == 0)

end Sys2Proof.Machine
end

