-- ==== Sys2Proof/Machine/Handlers.lean ====
section
/-! DEFINITION. What every instruction shares once its word is fetched: resolve the operands, then skip or run the handler
(R140 steps 3 to 6, R147). The state given is the one after the fetch: PC is one past the instruction word. -/

namespace Sys2Proof.Machine

/-- R145: what a skip does in place of the handler. -/
def State.suppress (s : State) : State := (s.setSkip false).addCycles 2

/-- R147, R171: the handler's writes, in the order the alu_wrapper gives. A request that fails sets the flag, and none is
ever cleared here (R204). -/
def State.commit (s : State) (la : Loc) : AluOut → State
  | .result r => s.writeLoc la r
  | .resultThenO r o => (s.writeLoc la r).setO o
  | .oThenResult o r => (s.setO o).writeLoc la r
  | .skipRequest b => if b then s.setSkip true else s

/-- R140, steps 5 and 6: skip or execute, on the state the resolutions left. -/
def skipOr (handler : State → State) (s : State) : State := if s.skip then s.suppress else handler s

/-- R147: both reads come before any write. -/
def basicHandler (alu : Word → Word → AluOut) (la lb : Loc) (s : State) : State :=
  s.commit la (alu (s.readLoc la) (s.readLoc lb))

/-- R144, R120: a basic instruction resolves a, then b. An illegal operand is a fault even under a pending skip (R119),
a before b (R247). Its record is rebuilt from the term: the word is the encoding, its address one before PC (log 5). -/
def runBasic (op : BitVec 4) (alu : Word → Word → AluOut) (a b : Operand) (s : State) : Host.Outcome State Fault Refusal :=
  let w := packWord op a.code b.code
  match resolve a s with
  | none => raise (invalidOperandRecord (s.pc - 1) w .a a.code)
  | some (la, s1) =>
    match resolve b s1 with
    | none => raise (invalidOperandRecord (s.pc - 1) w .b b.code)
    | some (lb, s2) => .next (skipOr (basicHandler alu la lb) s2)

/-- R143: an extended instruction resolves b only. -/
def runExtended (xop : BitVec 6) (handler : Loc → State → State) (b : Operand) (s : State) :
    Host.Outcome State Fault Refusal :=
  match resolve b s with
  | none => raise (invalidOperandRecord (s.pc - 1) (packWord 0 xop b.code) .b b.code)
  | some (lb, s1) => .next (skipOr (handler lb) s1)

end Sys2Proof.Machine
end

