-- ==== Sys2Proof/Machine/Arithmetic.lean ====
section
/-! DEFINITION. SET and the arithmetic instructions (R160 to R165). -/

namespace Sys2Proof.Machine

/-- R160: SET a, b. -/
def execSet (a b : Operand) (s : State) : Host.Outcome State Fault Refusal := runBasic 0x1 aluSet a b s

/-- R161: ADD a, b. -/
def execAdd (a b : Operand) (s : State) : Host.Outcome State Fault Refusal := runBasic 0x2 aluAdd a b s

/-- R162: SUB a, b. -/
def execSub (a b : Operand) (s : State) : Host.Outcome State Fault Refusal := runBasic 0x3 aluSub a b s

/-- R163: MUL a, b. -/
def execMul (a b : Operand) (s : State) : Host.Outcome State Fault Refusal := runBasic 0x4 aluMul a b s

/-- R164: DIV a, b. -/
def execDiv (a b : Operand) (s : State) : Host.Outcome State Fault Refusal := runBasic 0x5 aluDiv a b s

/-- R165: MOD a, b. -/
def execMod (a b : Operand) (s : State) : Host.Outcome State Fault Refusal := runBasic 0x6 aluMod a b s

end Sys2Proof.Machine
end

