-- ==== Sys2Proof/Machine/Bitwise.lean ====
section
/-! DEFINITION. The shifts and the bitwise instructions (R166 to R170). -/

namespace Sys2Proof.Machine

/-- R166: SHL a, b. -/
def execShl (a b : Operand) (s : State) : Host.Outcome State Fault Refusal := runBasic 0x7 aluShl a b s

/-- R167: SHR a, b. -/
def execShr (a b : Operand) (s : State) : Host.Outcome State Fault Refusal := runBasic 0x8 aluShr a b s

/-- R168: AND a, b. -/
def execAnd (a b : Operand) (s : State) : Host.Outcome State Fault Refusal := runBasic 0x9 aluAnd a b s

/-- R169: BOR a, b. -/
def execBor (a b : Operand) (s : State) : Host.Outcome State Fault Refusal := runBasic 0xA aluBor a b s

/-- R170: XOR a, b. -/
def execXor (a b : Operand) (s : State) : Host.Outcome State Fault Refusal := runBasic 0xB aluXor a b s

end Sys2Proof.Machine
end

