-- ==== Sys2Proof/Machine/Conditional.lean ====
section
/-! DEFINITION. The conditional instructions (R200 to R203). They write no operand and no O. -/

namespace Sys2Proof.Machine

/-- R200: IFE a, b. -/
def execIfe (a b : Operand) (s : State) : Host.Outcome State Fault Refusal := runBasic 0xC aluIfe a b s

/-- R201: IFN a, b. -/
def execIfn (a b : Operand) (s : State) : Host.Outcome State Fault Refusal := runBasic 0xD aluIfn a b s

/-- R202: IFG a, b. -/
def execIfg (a b : Operand) (s : State) : Host.Outcome State Fault Refusal := runBasic 0xE aluIfg a b s

/-- R203: IFB a, b. -/
def execIfb (a b : Operand) (s : State) : Host.Outcome State Fault Refusal := runBasic 0xF aluIfb a b s

end Sys2Proof.Machine
end

