-- ==== Sys2Proof/Machine/Extended.lean ====
section
/-! DEFINITION. JSR (R220), and what a word that is no instruction does in a step (R117, R221). -/

namespace Sys2Proof.Machine

/-- R220: push the return address, then read b, then jump. The read comes after the push (decision D12; log 14). -/
def jsrHandler (lb : Loc) (s : State) : State :=
  let s1 := s.pushWord s.pc
  s1.setPc (s1.readLoc lb)

/-- R220: JSR b. -/
def execJsr (b : Operand) (s : State) : Host.Outcome State Fault Refusal := runExtended 0x01 jsrHandler b s

/-- R221, R242: an extended word with no handler. Its b is resolved; executed, it raises UnknownOpcode; skipped, it does
what UNKNOWN_EXT_UNDER_SKIP says (decision D13; log 12). `w` is the fetched word and `s` the state after the fetch. -/
def runUnknown (w : Word) (b : Operand) (s : State) : Host.Outcome State Fault Refusal :=
  match resolve b s with
  | none => raise (invalidOperandRecord (s.pc - 1) w .b b.code)
  | some (_, s1) =>
    if s1.skip then
      match Config.unknownExtUnderSkip with
      | .skip => .next s1.suppress
      | .fault => raise (unknownOpcodeRecord (s.pc - 1) w)
    else raise (unknownOpcodeRecord (s.pc - 1) w)

/-- R79: what a step does with a fetched word that the decoder rejects. An illegal operand code faults, skip or no skip
(R119, R241). -/
def runRejected (w : Word) (r : Reject) (s : State) : Host.Outcome State Fault Refusal :=
  match r with
  | .invalidOperand field code => raise (invalidOperandRecord (s.pc - 1) w field code)
  | .unknownOpcode _ b => runUnknown w b s

end Sys2Proof.Machine
end

