-- ==== Sys2Proof/Machine/Step.lean ====
section
/-! DEFINITION. One step of the core (R140), and placing an instruction where the next step fetches it. -/

namespace Sys2Proof.Machine

/-- R140: a halted core takes no step (R152; log 3). Otherwise fetch (R141), decode, and resolve, skip or execute. -/
def step (s : State) : Host.Outcome State Fault Refusal :=
  match s.status with
  | .halted r => .fault (.halted r)
  | .running =>
    match decode s.wordAtPc with
    | .ok i => exec i s.advance
    | .error r => runRejected s.wordAtPc r s.advance

/-- The instruction whose bits are w, put at PC with its two following Words (MAX_INSN_WORDS is 3, R6), in a state where
the next step fetches and runs it: no skip pending and the status Running (log 8). -/
def State.withFetchWord (s : State) (nbits w : Nat) : State :=
  let s1 := s.placeWords s.pc [tableWord nbits w 0, tableWord nbits w 1, tableWord nbits w 2]
  { s1 with skip := false, status := .running }

end Sys2Proof.Machine
end

