-- ==== Sys2Proof/Machine/Driver.lean ====
section
/-! DEFINITION. The core's contract with its three external agents (R274): the loader (R271), the driver (R257, R275) and the
observer (R254). -/

namespace Sys2Proof.Machine

/-- R271: the Words of the image from address 0, after construction and before the first step. It changes no register.
An image of more than 65536 words is refused (decision D21; log 8). On any other state than the one of R270, which R274
excludes, it does the same: DESIGN CHOICE, unsafe (log 20). -/
def load (img : List Word) (s : State) : Host.Outcome State Fault Refusal :=
  if img.length ≤ Config.memWords then .next { s with mem := s.mem.writeImage 0 img }
  else .refused (.imageTooLong img.length)

/-- R140, R245: the state the core holds after one call of `step()`: the next state, or the halted core when the step
raised a fault. A halted core is left as it is (R152). -/
def call (s : State) : State :=
  match s.status with
  | .halted _ => s
  | .running =>
    match step s with
    | .next t => t
    | .fault f => s.halt f.record
    | .refused _ => s

/-- R257: how a run ends. -/
inductive RunEnd where
  /-- The driver has made its steps, and the status of a core that was Running at their start is still Running. -/
  | ran (s : State)
  /-- Halted on a fault at step k, counted from 1 by the driver (R275), with the record of R245. -/
  | haltedAt (k : Nat) (r : FaultRecord)
  /-- A step was refused. No step of this model is. -/
  | refusedAt (k : Nat) (r : Refusal)
deriving DecidableEq, Repr

/-- R275: a run of n steps after k have been made. STEPS is the run's parameter (decision D20). A run that starts on a
core already Halted is excluded by R152 and R274 and has no ending in R257. DESIGN CHOICE, unsafe (log 20): with n = 0 it
answers `ran` with that core, otherwise `haltedAt` at its first call, with the record the core holds. -/
def driveFrom (k : Nat) : Nat → State → RunEnd
  | 0, s => .ran s
  | n + 1, s =>
    match step s with
    | .next t => driveFrom (k + 1) n t
    | .fault f => .haltedAt (k + 1) f.record
    | .refused r => .refusedAt (k + 1) r

/-- R275: a run of n steps; what it answers on a core already Halted is the model's choice (log 20). -/
def drive (n : Nat) (s : State) : RunEnd := driveFrom 0 n s

/-- R254: what an observer may read, between steps. The skip flag and the run status are not in it (R36). -/
structure Snapshot where
  regs : RegFile
  pc : Word
  sp : Word
  o : Word
  cycles : Nat
  mem : Memory
deriving DecidableEq, Repr

/-- R254. -/
def State.snapshot (s : State) : Snapshot where
  regs := s.regs
  pc := s.pc
  sp := s.sp
  o := s.o
  cycles := s.cycles
  mem := s.mem

end Sys2Proof.Machine
end

