-- ==== Sys2Proof/Safety.lean ====
section
/-! DEFINITION. What claims about runs are stated in: outcomes as data, the states and records that make sense, and runs that do
not fault. -/

namespace Sys2Proof.Machine

/-- The next state of an outcome, if it has one. -/
def nextOf : Host.Outcome State Fault Refusal → Option State
  | .next s => some s
  | .fault _ => none
  | .refused _ => none

/-- The fault of an outcome, if it is one. -/
def faultOf : Host.Outcome State Fault Refusal → Option Fault
  | .next _ => none
  | .fault f => some f
  | .refused _ => none

/-- R245: a record whose fields agree with each other: the three fields are those of its word, and its value is an operand
code 0x3F that stands in a field that is an operand, or the dispatch key of an extended opcode that is not JSR's. -/
def FaultRecord.wf (r : FaultRecord) : Bool :=
  r.op == opOf r.word && r.ac == aOf r.word && r.bc == bOf r.word &&
    match r.kind, r.value with
    | .invalidOperand, .operandCode .a code => code == 0x3F && r.ac == 0x3F && r.op != 0
    | .invalidOperand, .operandCode .b code => code == 0x3F && r.bc == 0x3F
    | .unknownOpcode, .dispatchKey key => r.op == 0 && r.ac != 0x01 && key == extendedKey r.ac
    | .invalidOperand, .dispatchKey _ => false
    | .unknownOpcode, .operandCode _ _ => false

/-- A status whose record, if it has one, makes sense. -/
def Status.wf : Status → Bool
  | .running => true
  | .halted r => r.wf

/-- The invariant of the core: memory is in canonical form, inside its 65536 Words (R50), and the status makes sense. -/
abbrev State.Inv (s : State) : Prop := s.mem.wf ∧ s.status.wf = true

/-- A run of n steps that ends, from a core that is Running, with the status still Running (R257). From a Halted core it
holds for n = 0 alone, and that is the model's choice (log 20). -/
abbrev RunsWithoutFault (n : Nat) (s t : State) : Prop := drive n s = .ran t

/-- R107, R109: what resolving an operand adds to SP, modulo 65536. -/
def spChange : Operand → Word
  | .pop => 1
  | .push => -1
  | .reg _ | .ind _ | .idx _ | .peek | .sp | .pc | .o | .memNext | .next | .lit _ => 0

end Sys2Proof.Machine
end

