-- ==== Sys2Proof/Certificates/Slice0/Obligations.lean ====
section
/-! DEFINITION. The statements for the provers. Each says which rule of spec/ it formalises. A statement called 'derived' rests on a
point that the spec marks as its own decision (D<n>) or derivation, and names it. Memory is read through
`Memory.readByte`, the read of one cell, and `State.readMem`, the read of one Word (R51). A statement about exec holds in every
state; step gives exec none but a running core's, and what exec does on a Halted one is the model's choice (log 20). -/

open Sys2Proof Sys2Proof.Machine

/-! ## What the statements are written in -/

namespace Sys2Proof.Claims

/-- R73: nwc(c) of an operand code. -/
def nwc (c : BitVec 6) : Nat :=
  if (0x10 ≤ c.toNat ∧ c.toNat ≤ 0x17) ∨ c = 0x1E ∨ c = 0x1F then 1 else 0

/-- R73: the length in Words that an instruction word fixes. -/
def wordLength (w : Word) : Nat := 1 + (if opOf w = 0 then 0 else nwc (aOf w)) + nwc (bOf w)

/-- R107, R109: what resolving an operand code adds to SP. -/
def spDelta (c : BitVec 6) : Word := if c = 0x18 then 1 else if c = 0x1A then -1 else 0

/-- R107, R109, R120: what resolving the operands of an instruction word adds to SP. -/
def wordSpDelta (w : Word) : Word := (if opOf w = 0 then 0 else spDelta (aOf w)) + spDelta (bOf w)

/-- R76: an instruction word whose instruction writes operand a: the opcodes 0x1 to 0xB. -/
def writesA (w : Word) : Prop := 1 ≤ (opOf w).toNat ∧ (opOf w).toNat ≤ 0xB

/-- R76, the column 'writes a'. -/
def writing : List (Operand → Operand → Instr) :=
  [.set, .add, .sub, .mul, .div, .mod, .shl, .shr, .and, .bor, .xor]

/-- R76, the column 'may set skip'. -/
def conditional : List (Operand → Operand → Instr) := [.ife, .ifn, .ifg, .ifb]

/-- R76, the column 'writes O'. -/
def writesO : Instr → Bool
  | .add _ _ | .sub _ _ | .mul _ _ | .div _ _ | .shl _ _ | .shr _ _ => true
  | .set _ _ | .mod _ _ | .and _ _ | .bor _ _ | .xor _ _ => false
  | .ife _ _ | .ifn _ _ | .ifg _ _ | .ifb _ _ | .jsr _ => false

/-- What resolving all operands of an instruction adds to SP. -/
def spMove : Instr → Word
  | .set a b | .add a b | .sub a b | .mul a b | .div a b | .mod a b => spChange a + spChange b
  | .shl a b | .shr a b | .and a b | .bor a b | .xor a b => spChange a + spChange b
  | .ife a b | .ifn a b | .ifg a b | .ifb a b => spChange a + spChange b
  | .jsr b => spChange b

/-- The shape of a result statement. With legal operands and no skip pending, a resolves, then b (R144), exec answers a
next state t, and `effect` tells t from the operand values va and vb read in the state u after both resolutions (R147). -/
def Runs (mk : Operand → Operand → Instr) (effect : (va vb : Word) → (la : Loc) → (u t : State) → Prop) : Prop :=
  ∀ (a b : Operand) (s : State), a.WellFormed → b.WellFormed → s.skip = false →
    ∃ la s1 lb u t, resolve a s = some (la, s1) ∧ resolve b s1 = some (lb, u) ∧ exec (mk a b) s = .next t ∧
      effect (u.readLoc la) (u.readLoc lb) la u t

/-- R31: the word at PC is a conditional instruction whose condition fails, its operands resolved after the fetch. -/
def conditionFails (s : State) : Prop :=
  ∃ a b la s1 lb u, resolve a s.advance = some (la, s1) ∧ resolve b s1 = some (lb, u) ∧
    ((decode s.wordAtPc = .ok (.ife a b) ∧ u.readLoc la ≠ u.readLoc lb) ∨
     (decode s.wordAtPc = .ok (.ifn a b) ∧ u.readLoc la = u.readLoc lb) ∨
     (decode s.wordAtPc = .ok (.ifg a b) ∧ (u.readLoc la).toNat ≤ (u.readLoc lb).toNat) ∨
     (decode s.wordAtPc = .ok (.ifb a b) ∧ u.readLoc la &&& u.readLoc lb = 0))

end Sys2Proof.Claims

open Sys2Proof.Claims

/-! ## Step, decode and encode -/

/-- R141: the fetch reads the Word at PC, PC += 1 (modulo 65536, the wrap by decision D6, log 10), cycle += 1, in every
step of a running core. What follows is exec of the decoded instruction, or what `runRejected` does with a word that is
none. The cycle counter never wraps, by decision D7 (log 13). -/
def Obligations.StepFetchesThenRunsDecodedInstruction : Prop :=
  ∀ s : State, s.status = .running →
    step s =
      match decode (s.readMem s.pc) with
      | .ok i => exec i { s with pc := s.pc + 1, cycles := s.cycles + 1 }
      | .error r => runRejected (s.readMem s.pc) r { s with pc := s.pc + 1, cycles := s.cycles + 1 }

/-- Words written out from R81 (opcode numbers by decision D4, log 9), one or more of each family. The bit numbering is
decision D3 (log 9), and that code 0x11, in 0x4402, names register B is conflict C4, decision D18 (log 18). -/
def Obligations.SampleWordsDecode : Prop :=
  decode 0x8401 = .ok (.set (.reg .a) (.lit 1)) ∧
  decode 0x7C01 = .ok (.set (.reg .a) .next) ∧
  decode 0x4402 = .ok (.add (.reg .a) (.idx .b)) ∧
  decode 0x2805 = .ok (.div (.reg .a) (.ind .c)) ∧
  decode 0x8407 = .ok (.shl (.reg .a) (.lit 1)) ∧
  decode 0x7C0B = .ok (.xor (.reg .a) .next) ∧
  decode 0x61AC = .ok (.ife .push .pop) ∧
  decode 0x1A3E = .ok (.ifg (.lit 3) (.reg .i)) ∧
  decode 0x0010 = .ok (.jsr (.reg .a))

/-- Decode and encode agree (R72, R76, R77, R81): no bit of an encoding is dropped. The opcode numbers (D4) and the bit
numbering (D3), which both sides share, are decisions (log 9). The registers of codes 0x10 to 0x17, which both sides
share too, are conflict C4, decision D18 (log 18). -/
def Obligations.DecodeOfEncodeIsTheInstruction : Prop :=
  ∀ i : Instr, i.WellFormed → decode (encode i) = .ok i

/-- The other direction (R81, R84): an instruction has one word, and what the decoder gives is well-formed. The opcode
numbers are decision D4 (log 9). The bit numbering is decision D3 (log 9), and the registers of codes 0x10 to 0x17 are
conflict C4, decision D18 (log 18). -/
def Obligations.EncodeOfDecodeIsTheWord : Prop :=
  ∀ (w : Word) (i : Instr), decode w = .ok i → i.WellFormed ∧ encode i = w

/-- R84 and R79, which the spec marks as derived: every word is exactly one of four things, with an illegal a before an
illegal b before an unknown opcode (R247). -/
def Obligations.DecodeSplitsEveryWord : Prop :=
  ∀ w : Word,
    (decode w = .error (.invalidOperand .a 0x3F) ↔ opOf w ≠ 0 ∧ aOf w = 0x3F) ∧
    (decode w = .error (.invalidOperand .b 0x3F) ↔ bOf w = 0x3F ∧ (opOf w = 0 ∨ aOf w ≠ 0x3F)) ∧
    ((∃ b, decode w = .error (.unknownOpcode (aOf w) b)) ↔ opOf w = 0 ∧ aOf w ≠ 0x01 ∧ bOf w ≠ 0x3F) ∧
    ((∃ i, decode w = .ok i) ↔ bOf w ≠ 0x3F ∧ ((opOf w = 0 ∧ aOf w = 0x01) ∨ (opOf w ≠ 0 ∧ aOf w ≠ 0x3F)))

/-- R73, which the spec marks as derived: the length is fixed by the instruction word alone, and is 1 to 3 Words. -/
def Obligations.LengthIsFixedByTheWord : Prop :=
  ∀ i : Instr, i.WellFormed → i.length = wordLength (encode i) ∧ 1 ≤ i.length ∧ i.length ≤ 3

/-! ## Operand forms (addressing_mode_resolver) -/

/-- R104 and R105: codes, locations, and no side effect. -/
def Obligations.RegisterOperandForms : Prop :=
  ∀ (r : Reg) (s : State),
    ((Operand.reg r).code.toNat = r.index ∧ resolve (.reg r) s = some (.reg r, s)) ∧
    ((Operand.ind r).code.toNat = 0x08 + r.index ∧ resolve (.ind r) s = some (.mem (s.reg r), s))

/-- R106: the address is next word + register modulo 65536 (decision D5, log 10), the register index is code − 0x10
(decision D18, log 18), PC += 1 and cycles += 1. PC wraps by decision D6 (log 10), and the cycle counter never does, by
decision D7 (log 13). -/
def Obligations.IndexedOperandForm : Prop :=
  ∀ (r : Reg) (s : State), (Operand.idx r).code.toNat = 0x10 + r.index ∧
    ∃ addr : Word, addr.toNat = ((s.readMem s.pc).toNat + (s.reg r).toNat) % 65536 ∧
      resolve (.idx r) s = some (.mem addr, { s with pc := s.pc + 1, cycles := s.cycles + 1 })

/-- R107, R108, R109: pop names the cell at the old SP, peek the cell at SP, push the cell at the new SP; SP moves modulo
65536 (for pop at 0xFFFF see also decision D6, log 10). -/
def Obligations.StackOperandForms : Prop :=
  ∀ s : State,
    (Operand.pop.code = 0x18 ∧ ∃ up : Word, up.toNat = (s.sp.toNat + 1) % 65536 ∧
      resolve .pop s = some (.mem s.sp, { s with sp := up })) ∧
    (Operand.peek.code = 0x19 ∧ resolve .peek s = some (.mem s.sp, s)) ∧
    (Operand.push.code = 0x1A ∧ ∃ down : Word, down.toNat = (s.sp.toNat + 65535) % 65536 ∧
      resolve .push s = some (.mem down, { s with sp := down }))

/-- R110 and R111 (and, for O, the first lines of R112): the location is the register itself, with no side effect; a read
gives the register at the moment of the read, a write sets it. -/
def Obligations.SpecialRegisterForms : Prop :=
  (∀ s : State, resolve .sp s = some (.sp, s) ∧ resolve .pc s = some (.pc, s) ∧ resolve .o s = some (.o, s)) ∧
  (Operand.sp.code = 0x1B ∧ Operand.pc.code = 0x1C ∧ Operand.o.code = 0x1D) ∧
  (∀ u : State, u.readLoc .sp = u.sp ∧ u.readLoc .pc = u.pc ∧ u.readLoc .o = u.o) ∧
  (∀ (u : State) (v : Word), u.writeLoc .sp v = { u with sp := v } ∧ u.writeLoc .pc v = { u with pc := v } ∧
    u.writeLoc .o v = { u with o := v })

/-- R113: memory at the address given by the next word (PC's wrap by decision D6, log 10). The cycle counter never
wraps, by decision D7 (log 13). -/
def Obligations.NextWordAddressForm : Prop :=
  Operand.memNext.code = 0x1E ∧
  ∀ s : State, resolve .memNext s = some (.mem (s.readMem s.pc), { s with pc := s.pc + 1, cycles := s.cycles + 1 })

/-- R114, by decision D9 (LIT1F_WRITABLE = true, log 11): the location is the cell the next word stands in. PC wraps by
decision D6 (log 10), and the cycle counter never does, by decision D7 (log 13). -/
def Obligations.NextWordItselfForm : Prop :=
  Operand.next.code = 0x1F ∧
  ∀ s : State, resolve .next s = some (.mem s.pc, { s with pc := s.pc + 1, cycles := s.cycles + 1 })

/-- R115: a short literal is its value, zero-extended, and a write to it is discarded. -/
def Obligations.ShortLiteralForm : Prop :=
  ∀ (v : BitVec 5) (s : State), v.toNat ≤ 30 →
    (Operand.lit v).code.toNat = 0x20 + v.toNat ∧
    ∃ w : Word, w.toNat = v.toNat ∧ resolve (.lit v) s = some (.lit w, s) ∧ s.readLoc (.lit w) = w ∧
      ∀ x : Word, s.writeLoc (.lit w) x = s

/-- R103's contract: the resolver answers on every operand code but 0x3F, and changes PC, SP and the cycle counter only.
PC and SP wrap by decision D6 (log 10). The cycle counter never wraps, by decision D7 (log 13). -/
def Obligations.ResolverChangesOnlyPcSpCycles : Prop :=
  ∀ (c : Operand) (s : State),
    ((resolve c s).isSome ↔ c.code ≠ 0x3F) ∧
    ∀ (l : Loc) (t : State), resolve c s = some (l, t) →
      t = { s with pc := t.pc, sp := t.sp, cycles := t.cycles } ∧
      t.pc = s.pc + BitVec.ofNat 16 (nwc c.code) ∧ t.cycles = s.cycles + nwc c.code ∧ t.sp = s.sp + spDelta c.code

/-- R74: operand b's next word is the one after operand a's, when both take one, and the first when a takes none
(the wrap of the addresses by decision D28, log 10). -/
def Obligations.NextWordOfBFollowsThatOfA : Prop :=
  ∀ (a : Operand) (s s1 : State) (la : Loc), resolve a s = some (la, s1) →
    s1.readMem s1.pc = if nwc a.code = 1 then s.readMem (s.pc + 1) else s.readMem s.pc

/-- R102: a location reads as what was written to it, except a literal, which drops the write; every other location
reads as before, and nothing that is no location changes. -/
def Obligations.LocationReadsBackWhatWasWritten : Prop :=
  ∀ (s : State) (l m : Loc) (v : Word),
    ((∀ w, l ≠ .lit w) → (s.writeLoc l v).readLoc l = v) ∧
    (∀ w, l = .lit w → s.writeLoc l v = s) ∧
    (m ≠ l → (s.writeLoc l v).readLoc m = s.readLoc m) ∧
    (s.writeLoc l v).skip = s.skip ∧ (s.writeLoc l v).cycles = s.cycles ∧
    (s.writeLoc l v).status = s.status ∧ (s.writeLoc l v).freeIndex = s.freeIndex

/-! ## Memory -/

/-- R57 and R51: a Word read is the Word last written at its address, whatever the address; writing the same Word twice
leaves the same state (of states whose memory is in canonical form, the model's representation (log 1), which every step
keeps). -/
def Obligations.MemoryReadsLastWrite : Prop :=
  ∀ (s : State) (k v : Word),
    (∀ j : Word, (s.writeMem k v).readMem j = if j = k then v else s.readMem j) ∧
    (s.mem.wf → (s.writeMem k v).writeMem k v = s.writeMem k v)

/-- The model's choice of representation (log 1): canonical memories that read alike at every Word are equal data. -/
def Obligations.CanonicalMemoryIsUnique : Prop :=
  ∀ m n : Memory, m.wf → n.wf → (∀ k : Word, m.readWord k = n.readWord k) → m = n

/-! ## Move, arithmetic, shift and bitwise results -/

/-- R160: SET a, b. -/
def Obligations.SetCopiesOperand : Prop :=
  Runs .set fun _va vb la u t => t = u.writeLoc la vb

/-- R161: ADD a, b; a is written, then O (which matters only when a is O, see decision D11, log 15). -/
def Obligations.AddWritesSumAndCarry : Prop :=
  Runs .add fun va vb la u t => ∃ r o : Word, r.toNat = (va.toNat + vb.toNat) % 65536 ∧
    o.toNat = (if va.toNat + vb.toNat > 0xFFFF then 1 else 0) ∧ t = (u.writeLoc la r).setO o

/-- R162: SUB a, b. O is 0xFFFF on a borrow and 0 otherwise, by conflict C1 and decision D16 (log 17). The write order
is decision D11 (log 15). -/
def Obligations.SubWritesDifferenceAndBorrow : Prop :=
  Runs .sub fun va vb la u t => ∃ r o : Word, r.toNat = (va.toNat + 65536 - vb.toNat) % 65536 ∧
    o.toNat = (if va.toNat < vb.toNat then 0xFFFF else 0) ∧ t = (u.writeLoc la r).setO o

/-- R163: MUL a, b; a is written, then O. The write order is decision D11 (log 15). -/
def Obligations.MulWritesBothHalvesOfProduct : Prop :=
  Runs .mul fun va vb la u t => ∃ r o : Word, o.toNat * 65536 + r.toNat = va.toNat * vb.toNat ∧
    t = (u.writeLoc la r).setO o

/-- R164: DIV a, b; a is written, then O. A zero divisor gives 0 and 0, and no fault. The write order is decision D11
(log 15). -/
def Obligations.DivWritesQuotientAndFraction : Prop :=
  Runs .div fun va vb la u t => ∃ r o : Word,
    (vb = 0 → r = 0 ∧ o = 0) ∧
    (vb ≠ 0 → r.toNat = va.toNat / vb.toNat ∧ o.toNat = va.toNat * 65536 / vb.toNat % 65536) ∧
    t = (u.writeLoc la r).setO o

/-- R165: MOD a, b. A zero divisor gives 0, and O is not written. -/
def Obligations.ModWritesRemainder : Prop :=
  Runs .mod fun va vb la u t => ∃ r : Word,
    (vb = 0 → r = 0) ∧ (vb ≠ 0 → r.toNat = va.toNat % vb.toNat) ∧ t = u.writeLoc la r

/-- R166: SHL a, b; O is written, then a (decision D11, log 15). The shift is exact for every amount (decision D15,
log 16). -/
def Obligations.ShlWritesShiftedOutThenResult : Prop :=
  Runs .shl fun va vb la u t => ∃ r o : Word, r.toNat = va.toNat * 2 ^ vb.toNat % 65536 ∧
    o.toNat = va.toNat * 2 ^ vb.toNat / 65536 % 65536 ∧ t = (u.setO o).writeLoc la r

/-- R167: SHR a, b; O is written, then a (decision D11, log 15). The shift is logical, and exact for every amount
(decision D15, log 16). -/
def Obligations.ShrWritesShiftedOutThenResult : Prop :=
  Runs .shr fun va vb la u t => ∃ r o : Word, r.toNat = va.toNat / 2 ^ vb.toNat ∧
    o.toNat = va.toNat * 65536 / 2 ^ vb.toNat % 65536 ∧ t = (u.setO o).writeLoc la r

/-- R168, R169, R170: AND, BOR, XOR bit by bit; O is not written. -/
def Obligations.BitwiseResults : Prop :=
  (Runs .and fun va vb la u t => ∃ r : Word, (∀ k, r.getLsbD k = (va.getLsbD k && vb.getLsbD k)) ∧ t = u.writeLoc la r) ∧
  (Runs .bor fun va vb la u t => ∃ r : Word, (∀ k, r.getLsbD k = (va.getLsbD k || vb.getLsbD k)) ∧ t = u.writeLoc la r) ∧
  (Runs .xor fun va vb la u t => ∃ r : Word, (∀ k, r.getLsbD k = (va.getLsbD k ^^ vb.getLsbD k)) ∧ t = u.writeLoc la r)

/-- Decision D11 (log 15), the spec's own choice: when operand a is O, the later write stands. ADD, SUB, MUL and DIV
leave the overflow there, SHL and SHR the result. The operand values are those after the resolutions. SUB's 0xFFFF is
conflict C1, decision D16 (log 17), and the exactness of SHL and SHR for every amount decision D15 (log 16). -/
def Obligations.LaterWriteStandsWhenOIsDestination : Prop :=
  ∀ (b : Operand) (s : State), b.WellFormed → s.skip = false →
    ∃ lb u, resolve b s = some (lb, u) ∧
      (∃ t, exec (.add .o b) s = .next t ∧ t.o.toNat = (u.o.toNat + (u.readLoc lb).toNat) / 65536) ∧
      (∃ t, exec (.sub .o b) s = .next t ∧ t.o.toNat = if u.o.toNat < (u.readLoc lb).toNat then 0xFFFF else 0) ∧
      (∃ t, exec (.mul .o b) s = .next t ∧ t.o.toNat = u.o.toNat * (u.readLoc lb).toNat / 65536) ∧
      (∃ t, exec (.div .o b) s = .next t ∧ t.o.toNat = u.o.toNat * 65536 / (u.readLoc lb).toNat % 65536) ∧
      (∃ t, exec (.shl .o b) s = .next t ∧ t.o.toNat = u.o.toNat * 2 ^ (u.readLoc lb).toNat % 65536) ∧
      (∃ t, exec (.shr .o b) s = .next t ∧ t.o.toNat = u.o.toNat / 2 ^ (u.readLoc lb).toNat)

/-- Cases of R278 and R109, which rest on decision D10 (log 14): the second resolution sees SP as the first left it, and
a location keeps the address it was given. PUSH with POP, and POP with PUSH, name one cell twice and leave SP as it was;
SET SP, POP overwrites the pop's increment; ADD SP, PUSH adds to the decremented SP. -/
def Obligations.StackOperandsAreLiveHandles : Prop :=
  ∀ s : State, s.skip = false →
    (∃ t, exec (.set .push .pop) s = .next t ∧ t.sp = s.sp ∧ ∀ k : Word, t.readMem k = s.readMem k) ∧
    (∃ t, exec (.set .pop .push) s = .next t ∧ t.sp = s.sp ∧ ∀ k : Word, t.readMem k = s.readMem k) ∧
    (∃ t, exec (.set .sp .pop) s = .next t ∧ t.sp = s.readMem s.sp) ∧
    (∃ t, exec (.add .sp .push) s = .next t ∧ t.sp = s.sp - 1 + s.readMem (s.sp - 1))

/-! ## Conditionals -/

/-- R200, R201, R202: the skip flag is set exactly when the condition fails, and nothing else is written. The comparison
is unsigned. -/
def Obligations.ComparisonsSetSkipWhenTheyFail : Prop :=
  (Runs .ife fun va vb _la u t => t = { u with skip := decide (va ≠ vb) }) ∧
  (Runs .ifn fun va vb _la u t => t = { u with skip := decide (va = vb) }) ∧
  (Runs .ifg fun va vb _la u t => t = { u with skip := decide (va.toNat ≤ vb.toNat) })

/-- R203, by conflict C2 and decision D17 (log 17): IFB tests for a shared set bit. -/
def Obligations.BitTestSetsSkipWhenNoBitIsShared : Prop :=
  Runs .ifb fun va vb _la u t => t = { u with skip := t.skip } ∧
    (t.skip = true ↔ ∀ k, ¬ (va.getLsbD k = true ∧ vb.getLsbD k = true))

/-! ## JSR -/

/-- R220: sp −= 1, mem[sp] := PC, then PC := b, b read after the push (decision D12, log 14). PC is the address after
the whole instruction, because b was resolved before (R24). PC and SP wrap by decision D6 (log 10). -/
def Obligations.JsrPushesReturnAddressThenJumps : Prop :=
  ∀ (b : Operand) (s : State), b.WellFormed → s.skip = false →
    ∃ lb u, resolve b s = some (lb, u) ∧ u.pc = s.pc + BitVec.ofNat 16 b.nextWords ∧
      ∃ v : State, v = ({ u with sp := u.sp - 1 }).writeMem (u.sp - 1) u.pc ∧
        exec (.jsr b) s = .next { v with pc := v.readLoc lb }

/-- R220's corner cases, which rest on decision D12 (log 14) and, where SP wraps, on D6 (log 10). The next-word form reads
the cell the push may have written, which rests on decision D9, LIT1F_WRITABLE = true (log 11), too. `s` is the state after
the fetch, so for a one-word form s.pc is the return address. -/
def Obligations.JsrCornerCases : Prop :=
  ∀ s : State, s.skip = false →
    (∃ t, exec (.jsr .pop) s = .next t ∧ t.pc = s.pc ∧ t.sp = s.sp ∧ t.readMem s.sp = s.pc) ∧
    (∃ t, exec (.jsr .peek) s = .next t ∧ t.pc = s.readMem s.sp ∧ t.sp = s.sp - 1 ∧ t.readMem (s.sp - 1) = s.pc) ∧
    (∃ t, exec (.jsr .push) s = .next t ∧ t.pc = s.readMem (s.sp - 1) ∧ t.sp = s.sp - 2 ∧
      t.readMem (s.sp - 2) = s.pc) ∧
    (∃ t, exec (.jsr .sp) s = .next t ∧ t.pc = s.sp - 1 ∧ t.sp = s.sp - 1) ∧
    (∃ t, exec (.jsr .pc) s = .next t ∧ t.pc = s.pc ∧ t.readMem (s.sp - 1) = s.pc) ∧
    (∃ t, exec (.jsr .next) s = .next t ∧ t.readMem (s.sp - 1) = s.pc + 1 ∧
      t.pc = if s.sp - 1 = s.pc then s.pc + 1 else s.readMem s.pc)

/-- R222, which the spec marks as derived: SET PC, POP, run where JSR jumped to, returns to the address after the JSR
and restores SP. PC and SP wrap by decision D6 (log 10). -/
def Obligations.ReturnUndoesJsr : Prop :=
  ∀ (b : Operand) (s : State), b.WellFormed → s.skip = false →
    ∃ lb u t v, resolve b s = some (lb, u) ∧ exec (.jsr b) s = .next t ∧ exec (.set .pc .pop) t.advance = .next v ∧
      v.pc = u.pc ∧ v.sp = u.sp

/-! ## Completion, and the forms that stop -/

/-- Every instruction with legal operands runs, in every state, skipped or not: no condition but an illegal operand code
and an unknown extended opcode faults (R240). -/
def Obligations.EveryLegalInstructionCompletes : Prop :=
  ∀ (i : Instr) (s : State), i.WellFormed → ∃ t, exec i s = .next t

/-- R117 and R119 on a term: an operand with code 0x3F raises InvalidOperand, skipped or not. The record's address and
word are rebuilt from the term (the model's choice, log 5). -/
def Obligations.IllFormedInstructionRaisesInvalidOperand : Prop :=
  ∀ (i : Instr) (s : State), ¬ i.WellFormed →
    ∃ r : FaultRecord, exec i s = .fault (.invalidOperand r) ∧ r.atAddr = s.pc - 1 ∧ r.word = encode i

/-! ## Frames -/

/-- What the eleven instructions that write operand a leave unchanged. The destination is the location la that a
resolves to; SP and PC also move as resolving the operands moves them; the cycle counter counts the next words and a
skip. A next state of a skipped instruction is covered too. Memory: every cell outside the two of the Word stored to. PC
and SP wrap by decision D6 (log 10), and the cycle counter never does, by decision D7 (log 13). -/
def Obligations.WritingInstructionsFrame : Prop :=
  ∀ mk ∈ writing, ∀ (a b : Operand) (s s1 t : State) (la : Loc),
    resolve a s = some (la, s1) → exec (mk a b) s = .next t →
      (∀ r : Reg, la ≠ .reg r → t.reg r = s.reg r) ∧
      (∀ n : Nat, (∀ k : Word, la = .mem k → n ≠ 2 * k.toNat ∧ n ≠ 2 * k.toNat + 1) →
        t.mem.readByte n = s.mem.readByte n) ∧
      (writesO (mk a b) = false → la ≠ .o → t.o = s.o) ∧
      (la ≠ .sp → t.sp = s.sp + spChange a + spChange b) ∧
      (la ≠ .pc → t.pc = s.pc + BitVec.ofNat 16 (a.nextWords + b.nextWords)) ∧
      t.skip = false ∧ t.cycles = s.cycles + a.nextWords + b.nextWords + (if s.skip then 2 else 0) ∧
      t.status = s.status ∧ t.freeIndex = s.freeIndex

/-- What the four conditionals leave unchanged: everything but the skip flag, and PC, SP and the cycle counter as
resolving moves them. PC and SP wrap by decision D6 (log 10), and the cycle counter never does, by decision D7 (log 13).
-/
def Obligations.ConditionalInstructionsFrame : Prop :=
  ∀ mk ∈ conditional, ∀ (a b : Operand) (s t : State), exec (mk a b) s = .next t →
    (∀ r : Reg, t.reg r = s.reg r) ∧ (∀ n : Nat, t.mem.readByte n = s.mem.readByte n) ∧ t.o = s.o ∧
    t.sp = s.sp + spChange a + spChange b ∧ t.pc = s.pc + BitVec.ofNat 16 (a.nextWords + b.nextWords) ∧
    t.cycles = s.cycles + a.nextWords + b.nextWords + (if s.skip then 2 else 0) ∧
    t.status = s.status ∧ t.freeIndex = s.freeIndex

/-- What JSR leaves unchanged. It stores the Word at SP − 1, SP being the one b's resolution left; a skipped JSR stores
nothing and moves SP as b's resolution does. SP wraps by decision D6 (log 10), and the cycle counter never does, by
decision D7 (log 13). -/
def Obligations.JsrFrame : Prop :=
  ∀ (b : Operand) (s u t : State) (lb : Loc), resolve b s = some (lb, u) → exec (.jsr b) s = .next t →
    (∀ r : Reg, t.reg r = s.reg r) ∧ t.o = s.o ∧ t.skip = false ∧
    t.sp = (if s.skip then u.sp else u.sp - 1) ∧ (s.skip = true → t.pc = u.pc) ∧
    (∀ n : Nat, (s.skip = false → n ≠ 2 * (u.sp - 1).toNat ∧ n ≠ 2 * (u.sp - 1).toNat + 1) →
      t.mem.readByte n = s.mem.readByte n) ∧
    t.cycles = s.cycles + b.nextWords + (if s.skip then 2 else 0) ∧ t.status = s.status ∧ t.freeIndex = s.freeIndex

/-! ## The skip and the accounting of a step -/

/-- R145 and R119: a skipped instruction, whichever it is, only resolves its operands, clears the flag and adds 2
cycles. A conditional is not evaluated (R205). For words that are no instruction see decision D13 (log 12), not stated
here. PC and SP wrap by decision D6 (log 10), and the cycle counter never does, by decision D7 (log 13). -/
def Obligations.SkippedInstructionOnlyResolves : Prop :=
  ∀ (i : Instr) (s : State), i.WellFormed → s.skip = true →
    exec i s = .next { s with
      skip := false
      pc := s.pc + BitVec.ofNat 16 (i.length - 1)
      sp := s.sp + spMove i
      cycles := s.cycles + (i.length - 1) + 2 }

/-- R149, which the spec marks as derived: the cycles of a step that does not fault. The counter never wraps, by decision
D7 (log 13). -/
def Obligations.CyclesOfAStep : Prop :=
  ∀ s t : State, step s = .next t → t.cycles = s.cycles + wordLength (s.readMem s.pc) + (if s.skip then 2 else 0)

/-- R150, which the spec marks as derived: PC after a step is the address after the whole instruction, unless an
executed handler wrote PC, through operand a = PC or by JSR. The wrap is decision D6 (log 10). Which words write operand
a is read from the opcode numbers, decision D4 (PRESUMED, log 9). -/
def Obligations.PcAfterAStep : Prop :=
  ∀ s t : State, step s = .next t →
    s.skip = true ∨ (opOf (s.readMem s.pc) ≠ 0 ∧ (writesA (s.readMem s.pc) → aOf (s.readMem s.pc) ≠ 0x1C)) →
    t.pc = s.pc + BitVec.ofNat 16 (wordLength (s.readMem s.pc))

/-- R26 (its wrap by decision D6, log 10): SP moves only by pop, push, JSR and a write through operand a = SP. Which
words write operand a is read from the opcode numbers, decision D4 (PRESUMED, log 9). -/
def Obligations.SpAfterAStep : Prop :=
  ∀ s t : State, step s = .next t →
    s.skip = true ∨ (opOf (s.readMem s.pc) ≠ 0 ∧ (writesA (s.readMem s.pc) → aOf (s.readMem s.pc) ≠ 0x1B)) →
    t.sp = s.sp + wordSpDelta (s.readMem s.pc)

/-- R31, which the spec marks as derived: a step that starts in SkipPending ends in Normal, and one that starts in
Normal ends in SkipPending exactly when it executes a conditional whose condition fails. The condition of IFB is the
bitwise test of conflict C2, decision D17 (log 17). -/
def Obligations.ControlStatesOfAStep : Prop :=
  ∀ s t : State, step s = .next t →
    (s.skip = true → t.skip = false) ∧ (s.skip = false → (t.skip = true ↔ conditionFails s))

/-- Rules about the whole machine (R22, R28, R55, R76): a step changes a general register only as the operand a of a
writing instruction; O only in the six instructions that write it, or as such an operand; memory only in the Word that
such an operand resolves to after the fetch, or in the Word at SP − 1 that JSR pushes to, SP being the one b's
resolution left; and none of them when the instruction is skipped. Opcode numbers by decision D4 (log 9), a write
through code 0x1F by decision D9 (log 11). SP - 1 wraps by decision D6 (log 10). -/
def Obligations.StepWritesOnlyItsDestination : Prop :=
  ∀ s t : State, step s = .next t →
    (∀ r : Reg, t.reg r ≠ s.reg r →
      s.skip = false ∧ writesA (s.readMem s.pc) ∧ (aOf (s.readMem s.pc)).toNat = r.index) ∧
    (t.o ≠ s.o → s.skip = false ∧ writesA (s.readMem s.pc) ∧
      (aOf (s.readMem s.pc) = 0x1D ∨ opOf (s.readMem s.pc) ∈ [0x2, 0x3, 0x4, 0x5, 0x7, 0x8])) ∧
    (∀ n : Nat, t.mem.readByte n ≠ s.mem.readByte n → s.skip = false ∧
      ((opOf (s.readMem s.pc) = 0 ∧ aOf (s.readMem s.pc) = 0x01 ∧
        ∃ b lb u, Operand.ofCode (bOf (s.readMem s.pc)) = some b ∧ resolve b s.advance = some (lb, u) ∧
          (n = 2 * (u.sp - 1).toNat ∨ n = 2 * (u.sp - 1).toNat + 1)) ∨
       (writesA (s.readMem s.pc) ∧ ((0x08 ≤ (aOf (s.readMem s.pc)).toNat ∧ (aOf (s.readMem s.pc)).toNat ≤ 0x1A) ∨
        aOf (s.readMem s.pc) = 0x1E ∨ aOf (s.readMem s.pc) = 0x1F) ∧
        ∃ a k s1, Operand.ofCode (aOf (s.readMem s.pc)) = some a ∧ resolve a s.advance = some (.mem k, s1) ∧
          (n = 2 * k.toNat ∨ n = 2 * k.toNat + 1))))

/-- R30 (its width by decision D7, log 13): no instruction reads the cycle counter. Neither does any read the model's own
freeIndex (log 4): a step of a state that differs in these two alone gives a state that differs in them alone. -/
def Obligations.StepReadsNeitherCyclesNorFreeIndex : Prop :=
  ∀ (s t : State) (n m : Nat), step s = .next t →
    step { s with cycles := s.cycles + n, freeIndex := m } = .next { t with cycles := t.cycles + n, freeIndex := m }

/-! ## Faults -/

/-- R240: a step of a running core goes on, or ends in one of two faults. Nothing is refused. -/
def Obligations.StepEndsInNextOrOneOfTwoFaults : Prop :=
  ∀ s : State, s.status = .running →
    (∃ t, step s = .next t) ∨ (∃ r, step s = .fault (.invalidOperand r)) ∨ (∃ r, step s = .fault (.unknownOpcode r))

/-- R241: InvalidOperand is raised exactly by a word with 0x3F in an operand field, skipped or not. -/
def Obligations.InvalidOperandExactlyOnCode3F : Prop :=
  ∀ s : State, s.status = .running →
    ((∃ r, step s = .fault (.invalidOperand r)) ↔
      (opOf (s.readMem s.pc) ≠ 0 ∧ aOf (s.readMem s.pc) = 0x3F) ∨ bOf (s.readMem s.pc) = 0x3F)

/-- R242 and R221: UnknownOpcode is raised exactly by an extended word whose opcode is not JSR's and whose b is legal,
when it is executed; skipped, it passes with its resolution's effects only (decision D13, log 12). PC and SP wrap by
decision D6 (log 10), and the cycle counter never does, by decision D7 (log 13). -/
def Obligations.UnknownOpcodeExactlyWhenExecuted : Prop :=
  ∀ s : State, s.status = .running →
    ((∃ r, step s = .fault (.unknownOpcode r)) ↔
      opOf (s.readMem s.pc) = 0 ∧ aOf (s.readMem s.pc) ≠ 0x01 ∧ bOf (s.readMem s.pc) ≠ 0x3F ∧ s.skip = false) ∧
    (opOf (s.readMem s.pc) = 0 ∧ aOf (s.readMem s.pc) ≠ 0x01 ∧ bOf (s.readMem s.pc) ≠ 0x3F ∧ s.skip = true →
      step s = .next { s with
        skip := false
        pc := s.pc + BitVec.ofNat 16 (wordLength (s.readMem s.pc))
        sp := s.sp + wordSpDelta (s.readMem s.pc)
        cycles := s.cycles + wordLength (s.readMem s.pc) + 2 })

/-- R245, the record of decision D14 (log 3): it names the instruction that raised the fault, field by field, and its
offending operand code and field, or its dispatch key. -/
def Obligations.FaultRecordNamesTheInstruction : Prop :=
  ∀ (s : State) (f : Fault), s.status = .running → step s = .fault f →
    f.record.atAddr = s.pc ∧ f.record.word = s.readMem s.pc ∧ f.record.wf = true ∧
    (∀ r, f = .invalidOperand r → r.kind = .invalidOperand ∧
      (r.value = .operandCode .a 0x3F ∨ (r.value = .operandCode .b 0x3F ∧ (r.op = 0 ∨ r.ac ≠ 0x3F)))) ∧
    (∀ r, f = .unknownOpcode r → r.kind = .unknownOpcode ∧
      ∃ key : BitVec 8, r.value = .dispatchKey key ∧ key.toNat = 0x80 + r.ac.toNat)

/-- R152 and R245, by decision D14 (log 3): after a fault every further call finds the core halted with the same record
and leaves it as it is, and a step of a halted core is that record and nothing else. -/
def Obligations.FaultHaltsForGood : Prop :=
  ∀ (s : State) (f : Fault), s.status = .running → step s = .fault f →
    ∀ n : Nat, (call^[n] (call s)).status = .halted f.record ∧ call^[n] (call s) = call s ∧
      step (call^[n] (call s)) = .fault (.halted f.record)

/-! ## Reset, load, runs -/

/-- R35 (skip, cycle counter and status by decisions D8, D7 and D14, log 13 and log 3): the state at construction. -/
def Obligations.ResetIsZeroEverywhere : Prop :=
  (∀ r : Reg, State.reset.reg r = 0) ∧ (∀ k : Word, State.reset.readMem k = 0) ∧
  State.reset.pc = 0 ∧ State.reset.sp = 0 ∧ State.reset.o = 0 ∧ State.reset.skip = false ∧ State.reset.cycles = 0 ∧
  State.reset.status = .running

/-- R65: an image of at most 65536 Words is written from address 0 upwards, the remainder stays zero, and nothing but
memory changes. -/
def Obligations.LoadedImageStandsAtZero : Prop :=
  ∀ img : List Word, img.length ≤ 65536 →
    ∃ t, load img State.reset = .next t ∧ t = { State.reset with mem := t.mem } ∧
      ∀ k : Word, t.readMem k = if h : k.toNat < img.length then img[k.toNat] else 0

/-- R271, by decision D21 (log 8): a longer image is refused. For any state but the one at construction, the only one
R271 and R274 let a loader meet, it is the model's choice (DESIGN CHOICE, log 20). -/
def Obligations.LongImageIsRefused : Prop :=
  ∀ (img : List Word) (s : State), img.length > 65536 → ∃ r, load img s = .refused r

/-- R257 and R275 (STEPS is the run's parameter, decision D20): a run of n steps ends with n steps made, as the host's
own run of the core does, or at the first step that faults, with its record. On a core already Halted, which R152 and
R274 exclude, the answers are the model's choice (log 20). The halt and its record are decision D14 (log 3). -/
def Obligations.DriverTellsTheTwoEndingsApart : Prop :=
  ∀ (n : Nat) (s : State),
    (∀ t, drive n s = .ran t ↔ Sys2Proof.core.run n s = .next t) ∧
    (∀ k r, drive n s = .haltedAt k r → 1 ≤ k ∧ k ≤ n ∧
      ∃ t f, drive (k - 1) s = .ran t ∧ step t = .fault f ∧ f.record = r) ∧
    (∀ k r, drive n s ≠ .refusedAt k r)

/-- R275's self-loop SUB PC, 1 (0x85C3; its opcode number by decision D4, log 9, its wrap at 0xFFFF by D6): every step
comes back to the same PC, adds a cycle and writes O. O's value is conflict C1, decision D16 (log 17), the bit numbering
of the word D3 (log 9), and the counter is unbounded by D7 (log 13). -/
def Obligations.SelfLoopStaysInPlace : Prop :=
  ∀ (s : State) (n : Nat), s.status = .running → s.skip = false → s.readMem s.pc = 0x85C3 →
    drive (n + 1) s = .ran { s with cycles := s.cycles + (n + 1), o := if s.pc = 0xFFFF then 0xFFFF else 0 }

/-! ## Invariants -/

/-- The invariant holds at reset. The canonical form of memory is the model's choice of representation (log 1). The
status Running is decision D14 (log 3). -/
def Obligations.ResetMeetsTheInvariant : Prop := State.reset.Inv

/-- R50, R244: from every state whose memory is in canonical form, inside the 65536 Words, a step leaves it so, and the
status of a state that a step gives is Running (R32: Halted never returns). The run status is decision D14 (log 3). The
canonical form is the model's choice of representation (DESIGN CHOICE, log 1). -/
def Obligations.StepKeepsMemoryCanonical : Prop :=
  ∀ s t : State, s.mem.wf → step s = .next t → t.mem.wf ∧ t.status = .running

/-- R32, R152, R245 (D14, log 3 and log 4): one call of step, faulting or not, keeps the whole invariant, and a halted
core's record does not change. It holds for every value of the free values a halted core holds. The canonical form of
memory is the model's choice of representation (DESIGN CHOICE, log 1). -/
def Obligations.CallKeepsTheInvariant : Prop :=
  ∀ s : State, s.Inv → (call s).Inv ∧ ∀ r, s.status = .halted r → (call s).status = .halted r

/-- The loader's writes (R271) keep the model's canonical form of memory, which is its choice of representation and no
rule of the spec (DESIGN CHOICE, log 1), and leave the status as it is. Any state but the one at construction is one
that R271 and R274 let no loader meet: what load does there is the model's choice (DESIGN CHOICE, log 20). -/
def Obligations.LoadKeepsTheInvariant : Prop :=
  ∀ (img : List Word) (s t : State), s.Inv → load img s = .next t → t.Inv
end

