-- ==== Sys2Proof/Laws/State.lean ====
section
/-! SUPPORT. One lemma per field per update of State, true by definition, so that no later proof unfolds a record update. -/

namespace Sys2Proof.Machine

variable (s : State)

/-! ## setReg -/

@[simp] theorem State.setReg_regs (r : Reg) (v : Word) : (s.setReg r v).regs = s.regs.set r v := rfl
@[simp] theorem State.setReg_pc (r : Reg) (v : Word) : (s.setReg r v).pc = s.pc := rfl
@[simp] theorem State.setReg_sp (r : Reg) (v : Word) : (s.setReg r v).sp = s.sp := rfl
@[simp] theorem State.setReg_o (r : Reg) (v : Word) : (s.setReg r v).o = s.o := rfl
@[simp] theorem State.setReg_skip (r : Reg) (v : Word) : (s.setReg r v).skip = s.skip := rfl
@[simp] theorem State.setReg_cycles (r : Reg) (v : Word) : (s.setReg r v).cycles = s.cycles := rfl
@[simp] theorem State.setReg_mem (r : Reg) (v : Word) : (s.setReg r v).mem = s.mem := rfl
@[simp] theorem State.setReg_status (r : Reg) (v : Word) : (s.setReg r v).status = s.status := rfl
@[simp] theorem State.setReg_freeIndex (r : Reg) (v : Word) : (s.setReg r v).freeIndex = s.freeIndex := rfl

/-! ## setPc -/

@[simp] theorem State.setPc_regs (v : Word) : (s.setPc v).regs = s.regs := rfl
@[simp] theorem State.setPc_pc (v : Word) : (s.setPc v).pc = v := rfl
@[simp] theorem State.setPc_sp (v : Word) : (s.setPc v).sp = s.sp := rfl
@[simp] theorem State.setPc_o (v : Word) : (s.setPc v).o = s.o := rfl
@[simp] theorem State.setPc_skip (v : Word) : (s.setPc v).skip = s.skip := rfl
@[simp] theorem State.setPc_cycles (v : Word) : (s.setPc v).cycles = s.cycles := rfl
@[simp] theorem State.setPc_mem (v : Word) : (s.setPc v).mem = s.mem := rfl
@[simp] theorem State.setPc_status (v : Word) : (s.setPc v).status = s.status := rfl
@[simp] theorem State.setPc_freeIndex (v : Word) : (s.setPc v).freeIndex = s.freeIndex := rfl

/-! ## setSp -/

@[simp] theorem State.setSp_regs (v : Word) : (s.setSp v).regs = s.regs := rfl
@[simp] theorem State.setSp_pc (v : Word) : (s.setSp v).pc = s.pc := rfl
@[simp] theorem State.setSp_sp (v : Word) : (s.setSp v).sp = v := rfl
@[simp] theorem State.setSp_o (v : Word) : (s.setSp v).o = s.o := rfl
@[simp] theorem State.setSp_skip (v : Word) : (s.setSp v).skip = s.skip := rfl
@[simp] theorem State.setSp_cycles (v : Word) : (s.setSp v).cycles = s.cycles := rfl
@[simp] theorem State.setSp_mem (v : Word) : (s.setSp v).mem = s.mem := rfl
@[simp] theorem State.setSp_status (v : Word) : (s.setSp v).status = s.status := rfl
@[simp] theorem State.setSp_freeIndex (v : Word) : (s.setSp v).freeIndex = s.freeIndex := rfl

/-! ## setO -/

@[simp] theorem State.setO_regs (v : Word) : (s.setO v).regs = s.regs := rfl
@[simp] theorem State.setO_pc (v : Word) : (s.setO v).pc = s.pc := rfl
@[simp] theorem State.setO_sp (v : Word) : (s.setO v).sp = s.sp := rfl
@[simp] theorem State.setO_o (v : Word) : (s.setO v).o = v := rfl
@[simp] theorem State.setO_skip (v : Word) : (s.setO v).skip = s.skip := rfl
@[simp] theorem State.setO_cycles (v : Word) : (s.setO v).cycles = s.cycles := rfl
@[simp] theorem State.setO_mem (v : Word) : (s.setO v).mem = s.mem := rfl
@[simp] theorem State.setO_status (v : Word) : (s.setO v).status = s.status := rfl
@[simp] theorem State.setO_freeIndex (v : Word) : (s.setO v).freeIndex = s.freeIndex := rfl

/-! ## setSkip -/

@[simp] theorem State.setSkip_regs (b : Bool) : (s.setSkip b).regs = s.regs := rfl
@[simp] theorem State.setSkip_pc (b : Bool) : (s.setSkip b).pc = s.pc := rfl
@[simp] theorem State.setSkip_sp (b : Bool) : (s.setSkip b).sp = s.sp := rfl
@[simp] theorem State.setSkip_o (b : Bool) : (s.setSkip b).o = s.o := rfl
@[simp] theorem State.setSkip_skip (b : Bool) : (s.setSkip b).skip = b := rfl
@[simp] theorem State.setSkip_cycles (b : Bool) : (s.setSkip b).cycles = s.cycles := rfl
@[simp] theorem State.setSkip_mem (b : Bool) : (s.setSkip b).mem = s.mem := rfl
@[simp] theorem State.setSkip_status (b : Bool) : (s.setSkip b).status = s.status := rfl
@[simp] theorem State.setSkip_freeIndex (b : Bool) : (s.setSkip b).freeIndex = s.freeIndex := rfl

/-! ## addCycles -/

@[simp] theorem State.addCycles_regs (n : Nat) : (s.addCycles n).regs = s.regs := rfl
@[simp] theorem State.addCycles_pc (n : Nat) : (s.addCycles n).pc = s.pc := rfl
@[simp] theorem State.addCycles_sp (n : Nat) : (s.addCycles n).sp = s.sp := rfl
@[simp] theorem State.addCycles_o (n : Nat) : (s.addCycles n).o = s.o := rfl
@[simp] theorem State.addCycles_skip (n : Nat) : (s.addCycles n).skip = s.skip := rfl
@[simp] theorem State.addCycles_cycles (n : Nat) : (s.addCycles n).cycles = s.cycles + n := rfl
@[simp] theorem State.addCycles_mem (n : Nat) : (s.addCycles n).mem = s.mem := rfl
@[simp] theorem State.addCycles_status (n : Nat) : (s.addCycles n).status = s.status := rfl
@[simp] theorem State.addCycles_freeIndex (n : Nat) : (s.addCycles n).freeIndex = s.freeIndex := rfl

/-! ## writeMem -/

@[simp] theorem State.writeMem_regs (k v : Word) : (s.writeMem k v).regs = s.regs := rfl
@[simp] theorem State.writeMem_pc (k v : Word) : (s.writeMem k v).pc = s.pc := rfl
@[simp] theorem State.writeMem_sp (k v : Word) : (s.writeMem k v).sp = s.sp := rfl
@[simp] theorem State.writeMem_o (k v : Word) : (s.writeMem k v).o = s.o := rfl
@[simp] theorem State.writeMem_skip (k v : Word) : (s.writeMem k v).skip = s.skip := rfl
@[simp] theorem State.writeMem_cycles (k v : Word) : (s.writeMem k v).cycles = s.cycles := rfl
@[simp] theorem State.writeMem_mem (k v : Word) : (s.writeMem k v).mem = s.mem.writeWord k v := rfl
@[simp] theorem State.writeMem_status (k v : Word) : (s.writeMem k v).status = s.status := rfl
@[simp] theorem State.writeMem_freeIndex (k v : Word) : (s.writeMem k v).freeIndex = s.freeIndex := rfl

/-! ## advance -/

@[simp] theorem State.advance_regs : s.advance.regs = s.regs := rfl
@[simp] theorem State.advance_pc : s.advance.pc = s.pc + 1 := rfl
@[simp] theorem State.advance_sp : s.advance.sp = s.sp := rfl
@[simp] theorem State.advance_o : s.advance.o = s.o := rfl
@[simp] theorem State.advance_skip : s.advance.skip = s.skip := rfl
@[simp] theorem State.advance_cycles : s.advance.cycles = s.cycles + 1 := rfl
@[simp] theorem State.advance_mem : s.advance.mem = s.mem := rfl
@[simp] theorem State.advance_status : s.advance.status = s.status := rfl
@[simp] theorem State.advance_freeIndex : s.advance.freeIndex = s.freeIndex := rfl

/-! ## suppress -/

@[simp] theorem State.suppress_regs : s.suppress.regs = s.regs := rfl
@[simp] theorem State.suppress_pc : s.suppress.pc = s.pc := rfl
@[simp] theorem State.suppress_sp : s.suppress.sp = s.sp := rfl
@[simp] theorem State.suppress_o : s.suppress.o = s.o := rfl
@[simp] theorem State.suppress_skip : s.suppress.skip = false := rfl
@[simp] theorem State.suppress_cycles : s.suppress.cycles = s.cycles + 2 := rfl
@[simp] theorem State.suppress_mem : s.suppress.mem = s.mem := rfl
@[simp] theorem State.suppress_status : s.suppress.status = s.status := rfl
@[simp] theorem State.suppress_freeIndex : s.suppress.freeIndex = s.freeIndex := rfl

/-! ## Registers and memory Words through the other updates -/

@[simp] theorem State.readMem_setReg (r : Reg) (v : Word) (j : Word) : (s.setReg r v).readMem j = s.readMem j := rfl
@[simp] theorem State.reg_setPc (v : Word) (q : Reg) : (s.setPc v).reg q = s.reg q := rfl
@[simp] theorem State.readMem_setPc (v : Word) (j : Word) : (s.setPc v).readMem j = s.readMem j := rfl
@[simp] theorem State.reg_setSp (v : Word) (q : Reg) : (s.setSp v).reg q = s.reg q := rfl
@[simp] theorem State.readMem_setSp (v : Word) (j : Word) : (s.setSp v).readMem j = s.readMem j := rfl
@[simp] theorem State.reg_setO (v : Word) (q : Reg) : (s.setO v).reg q = s.reg q := rfl
@[simp] theorem State.readMem_setO (v : Word) (j : Word) : (s.setO v).readMem j = s.readMem j := rfl
@[simp] theorem State.reg_setSkip (b : Bool) (q : Reg) : (s.setSkip b).reg q = s.reg q := rfl
@[simp] theorem State.readMem_setSkip (b : Bool) (j : Word) : (s.setSkip b).readMem j = s.readMem j := rfl
@[simp] theorem State.reg_addCycles (n : Nat) (q : Reg) : (s.addCycles n).reg q = s.reg q := rfl
@[simp] theorem State.readMem_addCycles (n : Nat) (j : Word) : (s.addCycles n).readMem j = s.readMem j := rfl
@[simp] theorem State.reg_writeMem (k v : Word) (q : Reg) : (s.writeMem k v).reg q = s.reg q := rfl
@[simp] theorem State.reg_advance (q : Reg) : s.advance.reg q = s.reg q := rfl
@[simp] theorem State.readMem_advance (j : Word) : s.advance.readMem j = s.readMem j := rfl
@[simp] theorem State.reg_suppress (q : Reg) : s.suppress.reg q = s.reg q := rfl
@[simp] theorem State.readMem_suppress (j : Word) : s.suppress.readMem j = s.readMem j := rfl

/-! ## The register file -/

@[simp] theorem RegFile.get_set_same (f : RegFile) (r : Reg) (v : Word) : (f.set r v).get r = v := by cases r <;> rfl

theorem RegFile.get_set_ne (f : RegFile) (r q : Reg) (v : Word) (h : q ≠ r) : (f.set r v).get q = f.get q := by
  cases r <;> cases q <;> first | rfl | exact absurd rfl h

@[simp] theorem State.reg_setReg_same (r : Reg) (v : Word) : (s.setReg r v).reg r = v := RegFile.get_set_same _ _ _

theorem State.reg_setReg_ne (r q : Reg) (v : Word) (h : q ≠ r) : (s.setReg r v).reg q = s.reg q :=
  RegFile.get_set_ne _ _ _ _ h

end Sys2Proof.Machine
end

