-- ==== Sys2Proof/Laws/Encoding.lean ====
section
/-! SUPPORT. The fields of a packed word are what was packed (R70, R81), and the operand-code map is one to one (R72). -/

namespace Sys2Proof

@[simp] theorem opOf_packWord (op : BitVec 4) (ac bc : BitVec 6) : opOf (packWord op ac bc) = op := by
  apply BitVec.eq_of_getLsbD_eq
  intro i hi
  simp only [opOf, packWord, BitVec.getLsbD_extractLsb', BitVec.getLsbD_append]
  simp [hi]

@[simp] theorem aOf_packWord (op : BitVec 4) (ac bc : BitVec 6) : aOf (packWord op ac bc) = ac := by
  apply BitVec.eq_of_getLsbD_eq
  intro i hi
  simp only [aOf, packWord, BitVec.getLsbD_extractLsb', BitVec.getLsbD_append]
  simp [hi]

@[simp] theorem bOf_packWord (op : BitVec 4) (ac bc : BitVec 6) : bOf (packWord op ac bc) = bc := by
  apply BitVec.eq_of_getLsbD_eq
  intro i hi
  simp only [bOf, packWord, BitVec.getLsbD_extractLsb', BitVec.getLsbD_append]
  simp [hi, show ¬ 10 + i < 4 by omega, show ¬ 10 + i - 4 < 6 by omega, show 10 + i - 4 - 6 = i by omega]

/-- A word is its three fields. -/
@[simp] theorem packWord_fields (w : Word) : packWord (opOf w) (aOf w) (bOf w) = w := by
  apply BitVec.eq_of_getLsbD_eq
  intro i hi
  simp only [packWord, opOf, aOf, bOf, BitVec.getLsbD_append, BitVec.getLsbD_extractLsb']
  by_cases h4 : i < 4
  · simp [h4]
  · by_cases h6 : i - 4 < 6
    · simp [h4, h6, show 4 + (i - 4) = i by omega]
    · simp [h4, h6, show i - 4 - 6 < 6 by omega, show 10 + (i - 4 - 6) = i by omega]

/-- The map gives back the operand form that a code was made from. -/
theorem Operand.ofCode_code {c : Operand} (h : c.WellFormed) : Operand.ofCode c.code = some c := by
  cases c with
  | reg r => cases r <;> rfl
  | ind r => cases r <;> rfl
  | idx r => cases r <;> rfl
  | lit v => revert h; revert v; decide
  | pop | peek | push | sp | pc | o | memNext | next => rfl

/-- What the map gives is legal, and its code is the code read. -/
theorem Operand.code_of_ofCode {n : BitVec 6} {c : Operand} (h : Operand.ofCode n = some c) : c.WellFormed ∧ c.code = n := by
  have all : ∀ n : BitVec 6, ∀ c ∈ Operand.ofCode n, c.WellFormed ∧ c.code = n := by decide
  exact all n c h

/-- R78: 0x3F is the one code outside the map. -/
theorem Operand.ofCode_eq_none {n : BitVec 6} : Operand.ofCode n = none ↔ n = 0x3F := by
  revert n; decide

/-- A legal operand's code is in the map. -/
theorem Operand.code_ne {c : Operand} (h : c.WellFormed) : c.code ≠ 0x3F := fun e => by
  have := Operand.ofCode_code h
  rw [Operand.ofCode_eq_none.2 e] at this
  exact absurd this (by simp)

end Sys2Proof
end

