-- ==== Sys2Proof/Laws/Memory.lean ====
section
/-! SUPPORT. The laws of the memory list: what a cell reads as after a write, and that every operation keeps the canonical form. -/

namespace Sys2Proof.Machine

/-! ## Reading after writing -/

theorem Memory.mem_dropByte {m : Memory} {k : Nat} {c : Host.Cell} : c ∈ m.dropByte k ↔ c ∈ m ∧ c.1 ≠ k := by
  induction m with
  | nil => simp [Memory.dropByte]
  | cons d m ih =>
    by_cases h : d.1 = k
    · simp only [Memory.dropByte, h, if_pos, ih, List.mem_cons]
      constructor
      · rintro ⟨hm, hk⟩; exact ⟨.inr hm, hk⟩
      · rintro ⟨rfl | hm, hk⟩
        · exact absurd h hk
        · exact ⟨hm, hk⟩
    · simp only [Memory.dropByte, h, if_false, List.mem_cons, ih]
      constructor
      · rintro (rfl | ⟨hm, hk⟩)
        · exact ⟨.inl rfl, h⟩
        · exact ⟨.inr hm, hk⟩
      · rintro ⟨rfl | hm, hk⟩
        · exact .inl rfl
        · exact .inr ⟨hm, hk⟩

theorem Memory.readByte_dropByte (m : Memory) (k j : Nat) :
    (m.dropByte k).readByte j = if j = k then unlistedByte else m.readByte j := by
  induction m with
  | nil => simp [Memory.dropByte, Memory.readByte]
  | cons d m ih =>
    by_cases h : d.1 = k
    · by_cases hj : j = k
      · subst hj
        simpa [Memory.dropByte, h] using ih
      · have : k ≠ j := fun e => hj e.symm
        simp [Memory.dropByte, Memory.readByte, h, ih, hj, this]
    · by_cases hd : d.1 = j
      · subst hd
        simp [Memory.dropByte, Memory.readByte, h]
      · simp [Memory.dropByte, Memory.readByte, h, hd, ih]

theorem Memory.readByte_insertByte (m : Memory) (k j : Nat) (v : Byte) (h : ∀ c ∈ m, c.1 ≠ k) :
    (m.insertByte k v).readByte j = if j = k then v else m.readByte j := by
  induction m with
  | nil => simp [Memory.insertByte, Memory.readByte, eq_comm]
  | cons d m ih =>
    have hd : d.1 ≠ k := h d (by simp)
    have ih := ih fun c hc => h c (by simp [hc])
    by_cases hk : k < d.1
    · by_cases hj : j = k
      · simp [Memory.insertByte, Memory.readByte, hk, hj]
      · have : k ≠ j := fun e => hj e.symm
        simp [Memory.insertByte, Memory.readByte, hk, hj, this]
    · by_cases hj : d.1 = j
      · subst hj
        simp [Memory.insertByte, Memory.readByte, hk, hd]
      · simp [Memory.insertByte, Memory.readByte, hk, hj, ih]

/-- A cell reads as what was last written to it, in a list of any form. -/
theorem Memory.readByte_writeByte (m : Memory) (k j : Nat) (v : Byte) :
    (m.writeByte k v).readByte j = if j = k then v else m.readByte j := by
  unfold Memory.writeByte
  by_cases hv : v = unlistedByte
  · rw [if_pos hv, Memory.readByte_dropByte, hv]
  · rw [if_neg hv, Memory.readByte_insertByte _ _ _ _ fun c hc => (Memory.mem_dropByte.1 hc).2,
      Memory.readByte_dropByte]
    by_cases hj : j = k <;> simp [hj]

/-- The two halves of a Word make it up again. -/
theorem highByte_append_lowByte (v : Word) : highByte v ++ lowByte v = v := by
  apply BitVec.eq_of_getLsbD_eq
  intro i hi
  simp only [highByte, lowByte, BitVec.getLsbD_append, BitVec.getLsbD_extractLsb']
  by_cases h : i < 8
  · simp [h]
  · have : i - 8 < 8 := by omega
    have h8 : 8 + (i - 8) = i := by omega
    simp [h, this, h8]

/-- What a cell reads as after a Word is written. -/
theorem Memory.readByte_writeWord (m : Memory) (k v : Word) (j : Nat) :
    (m.writeWord k v).readByte j =
      if j = 2 * k.toNat + 1 then highByte v else if j = 2 * k.toNat then lowByte v else m.readByte j := by
  simp only [Memory.writeWord, Memory.readByte_writeByte]

/-! ## The canonical form -/

theorem Memory.wf_nil : Memory.wf [] := ⟨.nil, by simp⟩

theorem Memory.dropByte_sublist (m : Memory) (k : Nat) : (m.dropByte k).Sublist m := by
  induction m with
  | nil => exact .slnil
  | cons d m ih =>
    by_cases h : d.1 = k
    · simpa [Memory.dropByte, h] using ih.cons d
    · simpa [Memory.dropByte, h] using ih.cons_cons d

theorem Memory.mem_insertByte {m : Memory} {k : Nat} {v : Byte} {c : Host.Cell} :
    c ∈ m.insertByte k v ↔ c = (k, v) ∨ c ∈ m := by
  induction m with
  | nil => simp [Memory.insertByte]
  | cons d m ih =>
    by_cases h : k < d.1
    · simp [Memory.insertByte, h]
    · simp only [Memory.insertByte, h, if_false, List.mem_cons, ih]
      tauto

theorem Memory.insertByte_rising {m : Memory} {k : Nat} {v : Byte} (hm : m.Pairwise fun c d => c.1 < d.1)
    (h : ∀ c ∈ m, c.1 ≠ k) : (m.insertByte k v).Pairwise fun c d => c.1 < d.1 := by
  induction m with
  | nil => simp [Memory.insertByte]
  | cons d m ih =>
    have hd : d.1 ≠ k := h d (by simp)
    rw [List.pairwise_cons] at hm
    by_cases hk : k < d.1
    · simp only [Memory.insertByte, hk, if_true, List.pairwise_cons, List.mem_cons]
      refine ⟨?_, hm⟩
      rintro c (rfl | hc)
      · exact hk
      · exact hk.trans (hm.1 c hc)
    · simp only [Memory.insertByte, hk, if_false, List.pairwise_cons]
      refine ⟨fun c hc => ?_, ih hm.2 fun c hc => h c (by simp [hc])⟩
      rcases Memory.mem_insertByte.1 hc with rfl | hc
      · exact lt_of_le_of_ne (not_lt.1 hk) hd
      · exact hm.1 c hc

theorem Memory.writeByte_wf {m : Memory} {k : Nat} {v : Byte} (hm : m.wf) (hk : k < 2 * Config.memWords) :
    (m.writeByte k v).wf := by
  have hd : (m.dropByte k).wf :=
    ⟨hm.1.sublist (m.dropByte_sublist k), fun c hc => hm.2 c (Memory.mem_dropByte.1 hc).1⟩
  unfold Memory.writeByte
  by_cases hv : v = unlistedByte
  · rwa [if_pos hv]
  · rw [if_neg hv]
    refine ⟨Memory.insertByte_rising hd.1 fun c hc => (Memory.mem_dropByte.1 hc).2, fun c hc => ?_⟩
    rcases Memory.mem_insertByte.1 hc with rfl | hc
    · exact ⟨hk, hv⟩
    · exact hd.2 c hc

theorem Memory.writeWord_wf {m : Memory} (k v : Word) (hm : m.wf) : (m.writeWord k v).wf := by
  have hk := k.isLt
  apply Memory.writeByte_wf (Memory.writeByte_wf hm _) <;> simp only [Config.memWords] <;> omega

theorem Memory.writeImage_wf (img : List Word) (k : Nat) {m : Memory} (hm : m.wf) : (m.writeImage k img).wf := by
  induction img generalizing m k with
  | nil => exact hm
  | cons v img ih => exact ih _ (Memory.writeWord_wf _ _ hm)

theorem Memory.ofCells_wf (cs : List Host.Cell) : (Memory.ofCells cs).wf := by
  induction cs with
  | nil => exact Memory.wf_nil
  | cons c cs ih => exact Memory.writeByte_wf ih (Nat.mod_lt _ (by simp [Config.memWords]))

theorem reset_mem_wf : State.reset.mem.wf := Memory.wf_nil

end Sys2Proof.Machine
end

