-- ==== Sys2Proof/Laws/Operands.lean ====
section
/-! SUPPORT. What resolving, reading and writing a location can do, said once. -/

namespace Sys2Proof.Machine

@[simp] theorem State.readLoc_reg (s : State) (r : Reg) : s.readLoc (.reg r) = s.reg r := rfl
@[simp] theorem State.readLoc_sp (s : State) : s.readLoc .sp = s.sp := rfl
@[simp] theorem State.readLoc_pc (s : State) : s.readLoc .pc = s.pc := rfl
@[simp] theorem State.readLoc_o (s : State) : s.readLoc .o = s.o := rfl
@[simp] theorem State.readLoc_mem (s : State) (k : Word) : s.readLoc (.mem k) = s.readMem k := rfl
@[simp] theorem State.readLoc_lit (s : State) (v : Word) : s.readLoc (.lit v) = v := rfl

@[simp] theorem State.writeLoc_reg (s : State) (r : Reg) (v : Word) : s.writeLoc (.reg r) v = s.setReg r v := rfl
@[simp] theorem State.writeLoc_sp (s : State) (v : Word) : s.writeLoc .sp v = s.setSp v := rfl
@[simp] theorem State.writeLoc_pc (s : State) (v : Word) : s.writeLoc .pc v = s.setPc v := rfl
@[simp] theorem State.writeLoc_o (s : State) (v : Word) : s.writeLoc .o v = s.setO v := rfl
@[simp] theorem State.writeLoc_mem (s : State) (k v : Word) : s.writeLoc (.mem k) v = s.writeMem k v := rfl
@[simp] theorem State.writeLoc_lit (s : State) (w v : Word) : s.writeLoc (.lit w) v = s := rfl

/-- No write through a location changes the skip flag. -/
theorem State.writeLoc_skip (s : State) (l : Loc) (v : Word) : (s.writeLoc l v).skip = s.skip := by cases l <;> rfl

theorem State.writeLoc_cycles (s : State) (l : Loc) (v : Word) : (s.writeLoc l v).cycles = s.cycles := by cases l <;> rfl

theorem State.writeLoc_status (s : State) (l : Loc) (v : Word) : (s.writeLoc l v).status = s.status := by cases l <;> rfl

theorem State.writeLoc_freeIndex (s : State) (l : Loc) (v : Word) : (s.writeLoc l v).freeIndex = s.freeIndex := by
  cases l <;> rfl

theorem State.writeLoc_mem_wf {s : State} (l : Loc) (v : Word) (h : s.mem.wf) : (s.writeLoc l v).mem.wf := by
  cases l <;> first | exact h | exact Memory.writeWord_wf _ _ h

/-- Everything resolving an operand can do to the state: PC and cycles by its next words, SP by its stack code. -/
theorem resolve_state {c : Operand} {s t : State} {l : Loc} (h : resolve c s = some (l, t)) :
    t = { s with pc := s.pc + BitVec.ofNat 16 c.nextWords, sp := s.sp + spChange c, cycles := s.cycles + c.nextWords } := by
  cases c <;> simp only [resolve, Option.some.injEq, Prod.mk.injEq] at h
  case lit v =>
    split at h
    · obtain ⟨-, rfl⟩ := Prod.mk.inj (Option.some.inj h)
      simp [spChange, Operand.nextWords]
    · exact absurd h (by simp)
  all_goals obtain ⟨-, rfl⟩ := h; simp [spChange, Operand.nextWords, State.advance, State.setPc, State.setSp,
    State.addCycles, BitVec.sub_eq_add_neg]

/-- R103, R117: the resolver answers exactly on the legal operands. -/
theorem resolve_isSome (c : Operand) (s : State) : (resolve c s).isSome = c.wf := by
  cases c <;> try rfl
  case lit v => by_cases h : v.toNat ≤ 30 <;> simp [resolve, Operand.wf, h]

theorem resolve_of_wf {c : Operand} (s : State) (h : c.WellFormed) : ∃ l t, resolve c s = some (l, t) := by
  have := resolve_isSome c s
  rw [h, Option.isSome_iff_exists] at this
  obtain ⟨⟨l, t⟩, e⟩ := this
  exact ⟨l, t, e⟩

theorem resolve_wf {c : Operand} {s t : State} {l : Loc} (h : resolve c s = some (l, t)) : c.WellFormed := by
  have := resolve_isSome c s
  rw [h] at this
  exact this.symm

end Sys2Proof.Machine
end

