-- ==== Sys2Proof/Laws/Handlers.lean ====
section
/-! SUPPORT. What the shared operations of the handlers can do, said once: each answers a next state of the form given, or
raises the fault given. -/

namespace Sys2Proof.Machine

/-- The three ways a basic instruction ends. -/
theorem runBasic_cases (op : BitVec 4) (alu : Word → Word → AluOut) (a b : Operand) (s : State) :
    (∃ la s1 lb s2, resolve a s = some (la, s1) ∧ resolve b s1 = some (lb, s2) ∧
      runBasic op alu a b s = .next (skipOr (basicHandler alu la lb) s2)) ∨
    (¬ a.WellFormed ∧ runBasic op alu a b s
      = .fault (.invalidOperand (invalidOperandRecord (s.pc - 1) (packWord op a.code b.code) .a a.code))) ∨
    (a.WellFormed ∧ ¬ b.WellFormed ∧ runBasic op alu a b s
      = .fault (.invalidOperand (invalidOperandRecord (s.pc - 1) (packWord op a.code b.code) .b b.code))) := by
  unfold runBasic
  cases ha : resolve a s with
  | none =>
    refine .inr (.inl ⟨?_, rfl⟩)
    have := resolve_isSome a s
    simp_all
  | some p =>
    obtain ⟨la, s1⟩ := p
    cases hb : resolve b s1 with
    | none =>
      refine .inr (.inr ⟨resolve_wf ha, ?_, by simp [hb]; rfl⟩)
      have := resolve_isSome b s1
      simp_all
    | some p =>
      obtain ⟨lb, s2⟩ := p
      exact .inl ⟨la, s1, lb, s2, rfl, hb, by simp [hb]⟩

/-- The two ways an extended instruction with a handler ends. -/
theorem runExtended_cases (xop : BitVec 6) (handler : Loc → State → State) (b : Operand) (s : State) :
    (∃ lb s1, resolve b s = some (lb, s1) ∧ runExtended xop handler b s = .next (skipOr (handler lb) s1)) ∨
    (¬ b.WellFormed ∧ runExtended xop handler b s
      = .fault (.invalidOperand (invalidOperandRecord (s.pc - 1) (packWord 0 xop b.code) .b b.code))) := by
  unfold runExtended
  cases hb : resolve b s with
  | none =>
    refine .inr ⟨?_, rfl⟩
    have := resolve_isSome b s
    simp_all
  | some p => exact .inl ⟨p.1, p.2, rfl, rfl⟩

/-- The three ways an extended word without a handler ends. -/
theorem runUnknown_cases (w : Word) (b : Operand) (s : State) :
    (∃ lb s1, resolve b s = some (lb, s1) ∧ s.skip = true ∧ runUnknown w b s = .next s1.suppress) ∨
    (b.WellFormed ∧ s.skip = false ∧ runUnknown w b s = .fault (.unknownOpcode (unknownOpcodeRecord (s.pc - 1) w))) ∨
    (¬ b.WellFormed ∧ runUnknown w b s
      = .fault (.invalidOperand (invalidOperandRecord (s.pc - 1) w .b b.code))) := by
  unfold runUnknown
  cases hb : resolve b s with
  | none =>
    refine .inr (.inr ⟨?_, rfl⟩)
    have := resolve_isSome b s
    simp_all
  | some p =>
    obtain ⟨lb, s1⟩ := p
    have hs : s1.skip = s.skip := by rw [resolve_state hb]
    by_cases h : s.skip = true
    · exact .inl ⟨lb, s1, rfl, h, by simp [hs, h, Config.unknownExtUnderSkip]⟩
    · exact .inr (.inl ⟨resolve_wf hb, by simpa using h, by simp [hs, h]; rfl⟩)

/-- Everything a commit leaves alone. -/
theorem State.commit_status (s : State) (la : Loc) (out : AluOut) : (s.commit la out).status = s.status := by
  cases out <;> simp only [State.commit, State.setO_status, State.writeLoc_status]
  split <;> rfl

theorem State.commit_cycles (s : State) (la : Loc) (out : AluOut) : (s.commit la out).cycles = s.cycles := by
  cases out <;> simp only [State.commit, State.setO_cycles, State.writeLoc_cycles]
  split <;> rfl

theorem State.commit_freeIndex (s : State) (la : Loc) (out : AluOut) : (s.commit la out).freeIndex = s.freeIndex := by
  cases out <;> simp only [State.commit, State.setO_freeIndex, State.writeLoc_freeIndex]
  split <;> rfl

theorem State.commit_mem_wf {s : State} (la : Loc) (out : AluOut) (h : s.mem.wf) : (s.commit la out).mem.wf := by
  cases out with
  | result r => exact State.writeLoc_mem_wf la r h
  | resultThenO r o => exact State.writeLoc_mem_wf (s := s) la r h
  | oThenResult o r => exact State.writeLoc_mem_wf (s := s.setO o) la r h
  | skipRequest b => cases b <;> exact h

end Sys2Proof.Machine
end

