-- ==== Sys2Proof/Laws/Arithmetic.lean ====
section
/-! SUPPORT. trunc16 and hi16 as numbers (R8). -/

namespace Sys2Proof.Machine

theorem trunc16_toNat (n : Nat) : (trunc16 (n : Int)).toNat = n % 65536 := by
  simp only [trunc16, BitVec.toNat_ofInt]
  omega

theorem hi16_toNat (n : Nat) : (hi16 (n : Int)).toNat = n / 65536 % 65536 := by
  have : ((n : Int) / 65536) = ((n / 65536 : Nat) : Int) := by omega
  rw [hi16, this, trunc16_toNat]

/-- The low Word of a difference of Words. -/
theorem trunc16_sub_toNat (x y : Word) : (trunc16 ((x.toNat : Int) - y.toNat)).toNat = (x.toNat + 65536 - y.toNat) % 65536 := by
  have := x.isLt
  have := y.isLt
  simp only [trunc16, BitVec.toNat_ofInt]
  omega

/-- The high Word of a difference of Words. -/
theorem hi16_sub_toNat (x y : Word) : (hi16 ((x.toNat : Int) - y.toNat)).toNat = if x.toNat < y.toNat then 65535 else 0 := by
  have := x.isLt
  have := y.isLt
  simp only [hi16, trunc16, BitVec.toNat_ofInt]
  split <;> omega

end Sys2Proof.Machine
end

