-- ==== Sys2Proof/Laws/Step.lean ====
section
/-! SUPPORT. What each arm of exec calls, and what a step can do, said once. -/

namespace Sys2Proof.Machine

variable (a b : Operand) (s : State)

theorem exec_set : exec (.set a b) s = runBasic 0x1 aluSet a b s := rfl
theorem exec_add : exec (.add a b) s = runBasic 0x2 aluAdd a b s := rfl
theorem exec_sub : exec (.sub a b) s = runBasic 0x3 aluSub a b s := rfl
theorem exec_mul : exec (.mul a b) s = runBasic 0x4 aluMul a b s := rfl
theorem exec_div : exec (.div a b) s = runBasic 0x5 aluDiv a b s := rfl
theorem exec_mod : exec (.mod a b) s = runBasic 0x6 aluMod a b s := rfl
theorem exec_shl : exec (.shl a b) s = runBasic 0x7 aluShl a b s := rfl
theorem exec_shr : exec (.shr a b) s = runBasic 0x8 aluShr a b s := rfl
theorem exec_and : exec (.and a b) s = runBasic 0x9 aluAnd a b s := rfl
theorem exec_bor : exec (.bor a b) s = runBasic 0xA aluBor a b s := rfl
theorem exec_xor : exec (.xor a b) s = runBasic 0xB aluXor a b s := rfl
theorem exec_ife : exec (.ife a b) s = runBasic 0xC aluIfe a b s := rfl
theorem exec_ifn : exec (.ifn a b) s = runBasic 0xD aluIfn a b s := rfl
theorem exec_ifg : exec (.ifg a b) s = runBasic 0xE aluIfg a b s := rfl
theorem exec_ifb : exec (.ifb a b) s = runBasic 0xF aluIfb a b s := rfl
theorem exec_jsr : exec (.jsr b) s = runExtended 0x01 jsrHandler b s := rfl

variable {s}

/-- A step that gives a next state starts from a running core, and is exec of the decoded instruction or a skipped
unknown extended word. -/
theorem step_next {t : State} (h : step s = .next t) :
    s.status = .running ∧
      ((∃ i, decode s.wordAtPc = .ok i ∧ exec i s.advance = .next t) ∨
       (∃ r, decode s.wordAtPc = .error r ∧ runRejected s.wordAtPc r s.advance = .next t)) := by
  unfold step at h
  cases hs : s.status with
  | halted r => rw [hs] at h; cases h
  | running =>
    rw [hs] at h
    refine ⟨rfl, ?_⟩
    cases hd : decode s.wordAtPc with
    | ok i => rw [hd] at h; exact .inl ⟨i, rfl, h⟩
    | error r => rw [hd] at h; exact .inr ⟨r, rfl, h⟩

/-- A rejected word that gives a next state is a skipped unknown extended word: its b is resolved, and that is all. -/
theorem runRejected_next {w : Word} {r : Reject} {t : State} (h : runRejected w r s = .next t) :
    ∃ xop b lb s1, r = .unknownOpcode xop b ∧ s.skip = true ∧ resolve b s = some (lb, s1) ∧ t = s1.suppress := by
  cases r with
  | invalidOperand f c => simp [runRejected, raise] at h
  | unknownOpcode x b =>
    simp only [runRejected] at h
    rcases runUnknown_cases w b s with ⟨lb, s1, e1, e2, e3⟩ | ⟨_, _, e⟩ | ⟨_, e⟩
    · rw [e3] at h; cases h; exact ⟨x, b, lb, s1, rfl, e2, e1, rfl⟩
    · rw [e] at h; cases h
    · rw [e] at h; cases h

end Sys2Proof.Machine
end

