-- ==== Sys2Proof/Laws/PerInstr.lean ====
section
/-! SUPPORT. A fact about every instruction, proved one constructor at a time: the word an instruction is encoded to carries the
match bits of its row of spec/opcode_table.json under that row's mask. -/

namespace Sys2Proof.Laws.TableMatch

/-- The "mask" column of spec/opcode_table.json. -/
def tableMask : Instr → Word
  | .set _ _ | .add _ _ | .sub _ _ | .mul _ _ | .div _ _ | .mod _ _ | .shl _ _ | .shr _ _ => 0x000F
  | .and _ _ | .bor _ _ | .xor _ _ | .ife _ _ | .ifn _ _ | .ifg _ _ | .ifb _ _ => 0x000F
  | .jsr _ => 0x03FF

/-- The "match" column of spec/opcode_table.json. -/
def tableBits : Instr → Word
  | .set _ _ => 0x0001
  | .add _ _ => 0x0002
  | .sub _ _ => 0x0003
  | .mul _ _ => 0x0004
  | .div _ _ => 0x0005
  | .mod _ _ => 0x0006
  | .shl _ _ => 0x0007
  | .shr _ _ => 0x0008
  | .and _ _ => 0x0009
  | .bor _ _ => 0x000A
  | .xor _ _ => 0x000B
  | .ife _ _ => 0x000C
  | .ifn _ _ => 0x000D
  | .ifg _ _ => 0x000E
  | .ifb _ _ => 0x000F
  | .jsr _ => 0x0010

def Statement (i : Instr) : Prop := encode i &&& tableMask i = tableBits i

/-- The opcode bits of a packed word are its opcode, whatever the operand codes. -/
theorem packWord_low4 (op : BitVec 4) (ac bc : BitVec 6) : packWord op ac bc &&& 0x000F = op.setWidth 16 := by
  apply BitVec.eq_of_getLsbD_eq
  intro i hi
  have h15 : BitVec.getLsbD (0x000F : Word) i = decide (i < 4) := by
    revert i; decide
  simp only [packWord, BitVec.getLsbD_and, BitVec.getLsbD_append, BitVec.getLsbD_setWidth, h15]
  by_cases h : i < 4
  · simp [h, hi]
  · simp [h, BitVec.getLsbD_of_ge op i (by omega)]

/-- The same for the ten low bits. -/
theorem packWord_low10 (op : BitVec 4) (ac bc : BitVec 6) :
    packWord op ac bc &&& 0x03FF = (ac ++ op).setWidth 16 := by
  apply BitVec.eq_of_getLsbD_eq
  intro i hi
  have h10 : BitVec.getLsbD (0x03FF : Word) i = decide (i < 10) := by
    revert i; decide
  simp only [packWord, BitVec.getLsbD_and, BitVec.getLsbD_append, BitVec.getLsbD_setWidth, h10]
  by_cases h4 : i < 4
  · simp [h4, hi, show i < 10 by omega]
  · by_cases h : i < 10
    · simp [h4, h, hi, show i - 4 < 6 by omega]
    · simp [h4, h, BitVec.getLsbD_of_ge ac (i - 4) (by omega)]

theorem set (a b : Operand) : Statement (.set a b) := packWord_low4 _ _ _
theorem add (a b : Operand) : Statement (.add a b) := packWord_low4 _ _ _
theorem sub (a b : Operand) : Statement (.sub a b) := packWord_low4 _ _ _
theorem mul (a b : Operand) : Statement (.mul a b) := packWord_low4 _ _ _
theorem div (a b : Operand) : Statement (.div a b) := packWord_low4 _ _ _
theorem mod (a b : Operand) : Statement (.mod a b) := packWord_low4 _ _ _
theorem shl (a b : Operand) : Statement (.shl a b) := packWord_low4 _ _ _
theorem shr (a b : Operand) : Statement (.shr a b) := packWord_low4 _ _ _
theorem and (a b : Operand) : Statement (.and a b) := packWord_low4 _ _ _
theorem bor (a b : Operand) : Statement (.bor a b) := packWord_low4 _ _ _
theorem xor (a b : Operand) : Statement (.xor a b) := packWord_low4 _ _ _
theorem ife (a b : Operand) : Statement (.ife a b) := packWord_low4 _ _ _
theorem ifn (a b : Operand) : Statement (.ifn a b) := packWord_low4 _ _ _
theorem ifg (a b : Operand) : Statement (.ifg a b) := packWord_low4 _ _ _
theorem ifb (a b : Operand) : Statement (.ifb a b) := packWord_low4 _ _ _
theorem jsr (b : Operand) : Statement (.jsr b) := packWord_low10 _ _ _

end Sys2Proof.Laws.TableMatch
end

