-- ==== Sys2Proof/Tests/Slice0.lean ====
section
/-! SUPPORT. The model's own tests, one step each. Every expected value is the spec's: a vector of spec/95_test_vectors.md (its id
stands in the comment), an example of a rule, or a word written out from R81's encoding. After them, for each statement of
Certificates/Slice0/Obligations.lean that has hypotheses, a witness that meets them. -/

namespace Sys2Proof.Machine.Tests

/-! ## Small states and small views -/

/-- The reset state with Words placed from an address on. -/
def placed (k : Word) (ws : List Word) : State := State.reset.placeWords k ws

/-- A start state of the vectors L2-ALU and L2-IF: one word at 0, values in A and B, and O = 0x5A5A. -/
def withAB (w va vb : Word) : State :=
  { placed 0 [w] with regs := { RegFile.reset with a := va, b := vb }, o := 0x5A5A }

/-- A and O after one step. -/
def aAndO (s : State) : Option (Word × Word) := (nextOf (step s)).map fun t => (t.regs.a, t.o)

/-- O after one step. -/
def oAfter (s : State) : Option Word := (nextOf (step s)).map State.o

/-- The skip flag after one step. -/
def skipAfter (s : State) : Option Bool := (nextOf (step s)).map State.skip

/-- PC, SP and the cycle counter after one step. -/
def pcSpCycles (s : State) : Option (Word × Word × Nat) := (nextOf (step s)).map fun t => (t.pc, t.sp, t.cycles)

/-- The Word at an address after one step. -/
def memAfter (s : State) (k : Word) : Option Word := (nextOf (step s)).map fun t => t.readMem k

/-- A after one step. -/
def aAfter (s : State) : Option Word := (nextOf (step s)).map fun t => t.regs.a

/-! ## Well-formedness: each check refuses an ill-formed term -/

theorem test_wf_refuses_literal_31_as_a : ¬ (Instr.set (.lit 31) (.reg .a)).WellFormed := by decide

theorem test_wf_refuses_literal_31_as_b : ¬ (Instr.add (.reg .a) (.lit 31)).WellFormed := by decide

theorem test_wf_refuses_jsr_literal_31 : ¬ (Instr.jsr (.lit 31)).WellFormed := by decide

theorem test_wf_accepts_literal_30 : (Instr.ifb (.lit 30) (.idx .j)).WellFormed := by decide

/-! ## Decoding: words written out from R81, b in bits 15 to 10, a in bits 9 to 4, op in bits 3 to 0 -/

/-- The instruction a word decodes to. -/
def decoded (w : Word) : Option Instr := decodeTableWord 16 w.toNat

theorem test_decode_set : decoded 0b000010_000001_0001 = some (.set (.reg .b) (.reg .c)) := by decide
theorem test_decode_add : decoded 0b001000_000011_0010 = some (.add (.reg .x) (.ind .a)) := by decide
theorem test_decode_sub : decoded 0b100001_011100_0011 = some (.sub .pc (.lit 1)) := by decide
theorem test_decode_mul : decoded 0b010111_000100_0100 = some (.mul (.reg .y) (.idx .j)) := by decide
theorem test_decode_div : decoded 0b011111_001101_0101 = some (.div (.ind .z) .next) := by decide
theorem test_decode_mod : decoded 0b011110_000101_0110 = some (.mod (.reg .z) .memNext) := by decide
theorem test_decode_shl : decoded 0b011101_010000_0111 = some (.shl (.idx .a) .o) := by decide
theorem test_decode_shr : decoded 0b011011_000110_1000 = some (.shr (.reg .i) .sp) := by decide
theorem test_decode_and : decoded 0b011001_000111_1001 = some (.and (.reg .j) .peek) := by decide
theorem test_decode_bor : decoded 0b011000_011010_1010 = some (.bor .push .pop) := by decide
theorem test_decode_xor : decoded 0b111110_011101_1011 = some (.xor .o (.lit 30)) := by decide
theorem test_decode_ife : decoded 0b011000_011010_1100 = some (.ife .push .pop) := by decide
theorem test_decode_ifn : decoded 0b100000_000000_1101 = some (.ifn (.reg .a) (.lit 0)) := by decide
theorem test_decode_ifg : decoded 0b000110_100011_1110 = some (.ifg (.lit 3) (.reg .i)) := by decide
theorem test_decode_ifb : decoded 0b001111_001000_1111 = some (.ifb (.ind .a) (.ind .j)) := by decide
theorem test_decode_jsr : decoded 0b011111_000001_0000 = some (.jsr .next) := by decide

/-- L2-FLT-4, -5, -6, -1, -2: the words R79 calls illegal are rejected by name, b's illegal code before the opcode. -/
theorem test_decode_rejects :
    [decode 0x0000, decode 0x0020, decode 0xFC20, decode 0xFC01, decode 0x03F1].map Except.toOption
        = [none, none, none, none, none] ∧
      runRejected 0xFC20 (.invalidOperand .b 0x3F) State.reset.advance
        = .fault (.invalidOperand (invalidOperandRecord 0 0xFC20 .b 0x3F)) := by
  exact ⟨by decide, rfl⟩

/-! ## Operand forms -/

/-- L2-RES-1. -/
theorem test_idx_read :
    aAfter { (placed 0 [0x4401, 0x0100]).writeMem 0x105 0xCAFE with regs := { RegFile.reset with b := 5 } } = some 0xCAFE := by
  decide

/-- L2-RES-2: the address wraps. -/
theorem test_idx_write_wraps :
    memAfter { placed 0 [0x9D01, 0xFFFF] with regs := { RegFile.reset with a := 2 } } 1 = some 7 := by decide

/-- L2-RES-3: SP wraps up. -/
theorem test_pop_wraps : pcSpCycles { (placed 0 [0x6001]).writeMem 0xFFFF 0x4242 with sp := 0xFFFF } = some (1, 0, 1) := by decide

/-- L2-RES-4: SP wraps down. -/
theorem test_push_wraps : memAfter (placed 0 [0x95A1]) 0xFFFF = some 5 := by decide

/-- L2-RES-5: both operands name mem[0xFF]. -/
theorem test_push_pop :
    memAfter { (((placed 0 [0x61A1]).writeMem 0xFF 3).writeMem 0x100 9) with sp := 0x100 } 0xFF = some 3 := by decide

/-- L2-RES-7. -/
theorem test_peek_write : memAfter { placed 0 [0x9D91] with sp := 0x20 } 0x20 = some 7 := by decide

/-- L2-RES-9: a is read after b's push moved SP. -/
theorem test_add_sp_push :
    pcSpCycles { (placed 0 [0x69B2]).writeMem 0x0F 4 with sp := 0x10 } = some (1, 0x13, 1) := by decide

/-- L2-RES-11: PC read in the handler is the address after the whole instruction. -/
theorem test_pc_read : memAfter { placed 0x40 [0x71E1, 0x0300] with pc := 0x40 } 0x300 = some 0x42 := by decide

/-- L2-RES-14: a's next word comes first (R74). -/
theorem test_next_word_order :
    memAfter ((placed 0 [0x79E1, 0x1000, 0x2000]).writeMem 0x2000 0x66) 0x1000 = some 0x66 := by decide

/-- L2-RES-16: the next word itself is overwritten. -/
theorem test_write_next_word : memAfter (placed 0 [0x95F1, 0x0007]) 1 = some 5 := by decide

/-- L2-RES-17: a write to a short literal is dropped. -/
theorem test_write_literal :
    nextOf (step { placed 0 [0x0251] with regs := { RegFile.reset with a := 9 } })
      = some { placed 0 [0x0251] with regs := { RegFile.reset with a := 9 }, pc := 1, cycles := 1 } := by decide

/-- L2-RES-21: an instruction at 0xFFFF takes its next word from 0x0000. -/
theorem test_next_word_at_top :
    pcSpCycles { placed 0xFFFF [0x7C01, 0x1234] with pc := 0xFFFF } = some (1, 0, 2) := by decide

/-! ## Arithmetic, shifts, bitwise (L2-ALU) -/

theorem test_set : aAndO (withAB 0x0401 0x0000 0xBEEF) = some (0xBEEF, 0x5A5A) := by decide
theorem test_add_carry : aAndO (withAB 0x0402 0xFFFF 0xFFFF) = some (0xFFFE, 0x0001) := by decide
theorem test_add_no_carry : aAndO (withAB 0x0402 0x7FFF 0x0001) = some (0x8000, 0x0000) := by decide
theorem test_sub_borrow : aAndO (withAB 0x0403 0x0003 0x0005) = some (0xFFFE, 0xFFFF) := by decide
theorem test_sub_equal : aAndO (withAB 0x0403 0x0005 0x0005) = some (0x0000, 0x0000) := by decide
theorem test_mul_high : aAndO (withAB 0x0404 0xFFFF 0xFFFF) = some (0x0001, 0xFFFE) := by decide
theorem test_div_fraction : aAndO (withAB 0x0405 0x8000 0x0003) = some (0x2AAA, 0xAAAA) := by decide
theorem test_div_zero : aAndO (withAB 0x0405 0x000A 0x0000) = some (0x0000, 0x0000) := by decide
theorem test_mod : aAndO (withAB 0x0406 0xFFFF 0x0010) = some (0x000F, 0x5A5A) := by decide
theorem test_mod_zero : aAndO (withAB 0x0406 0x0007 0x0000) = some (0x0000, 0x5A5A) := by decide
theorem test_shl_31 : aAndO (withAB 0x0407 0xFFFF 0x001F) = some (0x0000, 0x8000) := by decide
theorem test_shl_32 : aAndO (withAB 0x0407 0x0001 0x0020) = some (0x0000, 0x0000) := by decide
theorem test_shr_20 : aAndO (withAB 0x0408 0xFFFF 0x0014) = some (0x0000, 0x0FFF) := by decide
theorem test_shr_1 : aAndO (withAB 0x0408 0x0003 0x0001) = some (0x0001, 0x8000) := by decide
theorem test_and : aAndO (withAB 0x0409 0xF0F0 0x3C3C) = some (0x3030, 0x5A5A) := by decide
theorem test_bor : aAndO (withAB 0x040A 0xF0F0 0x0F0F) = some (0xFFFF, 0x5A5A) := by decide
theorem test_xor : aAndO (withAB 0x040B 0xFFFF 0x00FF) = some (0xFF00, 0x5A5A) := by decide

/-- L2-ORD-1: with a = O, DIV writes a first, and O's own write stands. -/
theorem test_div_o_order : oAfter { placed 0 [0x89D5] with o := 7 } = some 0x8000 := by decide

/-- L2-ORD-5: with a = O, SHL writes O first, and a's write stands. -/
theorem test_shl_o_order : oAfter { placed 0 [0x85D7] with o := 0x8001 } = some 2 := by decide

/-! ## Conditionals (L2-IF) -/

theorem test_ife_differs : skipAfter (withAB 0x040C 5 6) = some true := by decide
theorem test_ifn_equal : skipAfter (withAB 0x040D 5 5) = some true := by decide
theorem test_ifg_equal : skipAfter (withAB 0x040E 5 5) = some true := by decide
theorem test_ifg_unsigned : skipAfter (withAB 0x040E 0x8000 0x7FFF) = some false := by decide
theorem test_ifb_disjoint : skipAfter (withAB 0x040F 0x00F0 0x0F00) = some true := by decide
theorem test_ifb_shared : skipAfter (withAB 0x040F 0x0110 0x0100) = some false := by decide

/-- L2-IF-15: a skipped conditional is not evaluated. -/
theorem test_skipped_ife : skipAfter { placed 0 [0x000C] with skip := true } = some false := by decide

/-! ## JSR (L2-JSR) -/

/-- L2-JSR-1, L1-7. -/
theorem test_jsr : pcSpCycles { placed 0x10 [0x0010] with pc := 0x10, regs := { RegFile.reset with a := 0x30 } }
    = some (0x30, 0xFFFF, 1) := by decide

/-- L2-JSR-3: JSR POP reads the return address it has just pushed. -/
theorem test_jsr_pop :
    pcSpCycles { (placed 0x10 [0x6010]).writeMem 0x100 0x500 with pc := 0x10, sp := 0x100 } = some (0x11, 0x100, 1) := by decide

/-! ## Skip and faults -/

/-- L2-SKIP-1: the push's SP change stays, its write does not happen, and the skip costs 2. -/
theorem test_skipped_push :
    pcSpCycles { placed 0 [0x01A1] with skip := true, regs := { RegFile.reset with a := 1 } } = some (1, 0xFFFF, 3) := by decide

/-- L2-SKIP-4: a skipped unknown extended opcode passes. -/
theorem test_skipped_unknown : pcSpCycles { placed 0 [0x0000] with skip := true } = some (1, 0, 3) := by decide

/-- L2-FLT-5. -/
theorem test_unknown_opcode :
    faultOf (step (placed 0 [0x0020]))
      = some (.unknownOpcode ⟨.unknownOpcode, 0, 0x0020, 0, 2, 0, .dispatchKey 0x82⟩) := by decide

/-- L2-FLT-7: an illegal operand faults even in a skipped instruction. -/
theorem test_invalid_operand_skipped :
    faultOf (step { placed 0 [0xFC01] with skip := true })
      = some (.invalidOperand ⟨.invalidOperand, 0, 0xFC01, 1, 0, 0x3F, .operandCode .b 0x3F⟩) := by decide

/-- L2-LOOP-2: SUB PC, 1 at 0xFFFF. -/
theorem test_self_loop_at_top : oAfter { placed 0xFFFF [0x85C3] with pc := 0xFFFF } = some 0xFFFF := by decide

/-! ## Witnesses: for each statement with hypotheses, a state and operands that meet them, at the edges of each clause -/

/-- The values of operands a and b, read after both resolutions, where the hypotheses of a result statement hold. -/
def valuesOf (a b : Operand) (s : State) : Option (Word × Word) :=
  if a.wf && b.wf && !s.skip then
    match resolve a s with
    | none => none
    | some (la, s1) =>
      match resolve b s1 with
      | none => none
      | some (lb, u) => some (u.readLoc la, u.readLoc lb)
  else none

/-- A state with values in A and B and no skip pending, as exec gets it. -/
def abState (va vb : Word) : State := withAB 0 va vb

/-- Whether exec answers a next state, from an operand a that resolves. -/
def completes (mk : Operand → Operand → Instr) (a b : Operand) (s : State) : Bool :=
  (resolve a s).isSome && (nextOf (exec (mk a b) s)).isSome

/-- A state with these Words from an address on, PC there, and a skip pending or not. -/
def stateAt (k : Word) (skip : Bool) (ws : List Word) : State := { placed k ws with pc := k, skip := skip }

/-- Whether a step of it answers a next state. -/
def steps (s : State) : Bool := (nextOf (step s)).isSome

theorem witness_StepFetchesThenRunsDecodedInstruction :
    (placed 0 [0x8401]).status = .running ∧ decode (placed 0 [0x8401]).wordAtPc = .ok (.set (.reg .a) (.lit 1)) ∧
      decode State.reset.wordAtPc = .error (.unknownOpcode 0 (.reg .a)) := ⟨rfl, rfl, rfl⟩

theorem witness_DecodeOfEncodeIsTheInstruction :
    (Instr.ifb (.lit 30) (.idx .j)).WellFormed ∧ (Instr.jsr .next).WellFormed := by decide

theorem witness_EncodeOfDecodeIsTheWord : decode 0x8401 = .ok (.set (.reg .a) (.lit 1)) := rfl

theorem witness_LengthIsFixedByTheWord :
    (Instr.set .memNext .next).WellFormed ∧ (Instr.jsr (.lit 0)).WellFormed := by decide

theorem witness_ShortLiteralForm : (0 : BitVec 5).toNat ≤ 30 ∧ (30 : BitVec 5).toNat ≤ 30 := by decide

theorem witness_ResolverChangesOnlyPcSpCycles :
    (resolve (.lit 30) State.reset).isSome ∧ (resolve .pop State.reset).isSome ∧ (resolve (.idx .j) State.reset).isSome ∧
      ¬ (resolve (.lit 31) State.reset).isSome := by decide

theorem witness_NextWordOfBFollowsThatOfA :
    resolve .memNext State.reset = some (.mem 0, State.reset.advance) ∧
      resolve (.reg .a) State.reset = some (.reg .a, State.reset) := by decide

theorem witness_LocationReadsBackWhatWasWritten :
    (∀ w, Loc.mem 0xFFFF ≠ .lit w) ∧ (∃ w, Loc.lit 30 = .lit w) ∧ Loc.mem 0 ≠ Loc.mem 0xFFFF :=
  ⟨fun _ h => Loc.noConfusion h, ⟨30, rfl⟩, by decide⟩

theorem witness_MemoryReadsLastWrite : (placed 0xFFFF [0x1234]).mem.wf ∧ State.reset.mem.wf := by decide

theorem witness_CanonicalMemoryIsUnique :
    Memory.wf [(0, 1), (131071, 255)] ∧ Memory.wf ((placed 0 [1]).writeMem 0xFFFF 0xFF00).mem ∧
      ((placed 0 [1]).writeMem 0xFFFF 0xFF00).mem = [(0, 1), (131071, 255)] := by decide

theorem witness_SetCopiesOperand : valuesOf .next (.lit 30) State.reset = some (0, 30) := by decide

theorem witness_AddWritesSumAndCarry :
    valuesOf (.reg .a) (.reg .b) (abState 0xFFFF 1) = some (0xFFFF, 1) ∧
      valuesOf .o (.lit 0) (abState 0 0) = some (0x5A5A, 0) := by decide

theorem witness_SubWritesDifferenceAndBorrow :
    valuesOf (.reg .a) (.reg .b) (abState 0 0xFFFF) = some (0, 0xFFFF) ∧
      valuesOf (.reg .a) (.reg .b) (abState 5 5) = some (5, 5) := by decide

theorem witness_MulWritesBothHalvesOfProduct :
    valuesOf (.reg .a) (.reg .b) (abState 0xFFFF 0xFFFF) = some (0xFFFF, 0xFFFF) := by decide

theorem witness_DivWritesQuotientAndFraction :
    valuesOf (.reg .a) (.reg .b) (abState 7 0) = some (7, 0) ∧
      valuesOf (.reg .a) (.reg .b) (abState 7 1) = some (7, 1) := by decide

theorem witness_ModWritesRemainder :
    valuesOf (.lit 30) (.reg .b) (abState 7 0) = some (30, 0) ∧
      valuesOf (.lit 30) (.reg .b) (abState 7 1) = some (30, 1) := by decide

theorem witness_ShlWritesShiftedOutThenResult :
    valuesOf (.reg .a) (.reg .b) (abState 1 0xFFFF) = some (1, 0xFFFF) := by decide

theorem witness_ShrWritesShiftedOutThenResult :
    valuesOf (.reg .a) (.reg .b) (abState 1 0xFFFF) = some (1, 0xFFFF) ∧
      valuesOf .o (.reg .b) (abState 1 0) = some (0x5A5A, 0) := by decide

theorem witness_BitwiseResults : valuesOf .push .pop (abState 1 2) = some (0, 0) := by decide

theorem witness_LaterWriteStandsWhenOIsDestination :
    (Operand.lit 0).WellFormed ∧ Operand.next.WellFormed ∧ (abState 1 2).skip = false := by decide

theorem witness_StackOperandsAreLiveHandles : State.reset.skip = false := rfl

theorem witness_ComparisonsSetSkipWhenTheyFail :
    valuesOf (.reg .a) (.reg .b) (abState 5 5) = some (5, 5) ∧
      valuesOf (.reg .a) (.reg .b) (abState 0xFFFF 0) = some (0xFFFF, 0) := by decide

theorem witness_BitTestSetsSkipWhenNoBitIsShared :
    valuesOf (.reg .a) (.reg .b) (abState 0x8000 0x8000) = some (0x8000, 0x8000) ∧
      valuesOf (.reg .a) (.reg .b) (abState 0xFF00 0x00FF) = some (0xFF00, 0x00FF) := by decide

theorem witness_JsrPushesReturnAddressThenJumps : Operand.next.WellFormed ∧ (stateAt 0xFFFF false [0x7C10]).skip = false := by
  decide

/-- Both branches of the next-word form: the push lands on the next word, and it does not. -/
theorem witness_JsrCornerCases :
    (State.reset.setSp 1).skip = false ∧ (State.reset.setSp 1).sp - 1 = (State.reset.setSp 1).pc ∧
      State.reset.skip = false ∧ State.reset.sp - 1 ≠ State.reset.pc := by decide

theorem witness_ReturnUndoesJsr : Operand.next.WellFormed ∧ Operand.pop.WellFormed ∧ State.reset.skip = false := by decide

theorem witness_EveryLegalInstructionCompletes : (Instr.div .push (.lit 30)).WellFormed ∧ (Instr.jsr .pc).WellFormed := by
  decide

theorem witness_IllFormedInstructionRaisesInvalidOperand :
    ¬ (Instr.set (.lit 31) .pop).WellFormed ∧ ¬ (Instr.ife .pop (.lit 31)).WellFormed ∧ ¬ (Instr.jsr (.lit 31)).WellFormed := by
  decide

theorem witness_WritingInstructionsFrame :
    Instr.mul ∈ Claims.writing ∧ completes .mul (.reg .a) .next State.reset ∧ completes .mul .sp .pop State.reset ∧
      Instr.set ∈ Claims.writing ∧ completes .set .push (.lit 30) State.reset ∧
      completes .set .pc .o (State.reset.setSkip true) :=
  ⟨by simp [Claims.writing], by decide, by decide, by simp [Claims.writing], by decide, by decide⟩

theorem witness_ConditionalInstructionsFrame :
    Instr.ifb ∈ Claims.conditional ∧ completes .ifb .pop .next State.reset ∧
      completes .ifb .pop .next (State.reset.setSkip true) := ⟨by simp [Claims.conditional], by decide, by decide⟩

theorem witness_JsrFrame :
    resolve .push State.reset = some (.mem 0xFFFF, State.reset.setSp 0xFFFF) ∧
      (nextOf (exec (.jsr .push) State.reset)).isSome ∧ (nextOf (exec (.jsr .push) (State.reset.setSkip true))).isSome := by
  decide

theorem witness_SkippedInstructionOnlyResolves :
    (Instr.ifg .push .next).WellFormed ∧ (Instr.jsr .pop).WellFormed ∧ (State.reset.setSkip true).skip = true := by decide

theorem witness_CyclesOfAStep :
    steps (stateAt 0xFFFF false [0x7DE1, 1, 2]) ∧ steps (stateAt 0xFFFF true [0x7DE1, 1, 2]) ∧ steps (stateAt 0 true [0x7C20, 1]) := by
  decide

/-- Both hypotheses of the PC statement: a skipped jump (SET PC, 1), an instruction that only reads PC (IFE PC, 1), and one
that writes another operand. -/
theorem witness_PcAfterAStep :
    steps (stateAt 0xFFFF true [0x85C1]) ∧ (stateAt 0xFFFF true [0x85C1]).skip = true ∧
      steps (stateAt 0xFFFF false [0x85CC]) ∧ opOf 0x85CC ≠ 0 ∧ ¬ Claims.writesA 0x85CC ∧
      steps (stateAt 0xFFFF false [0x8401]) ∧ opOf 0x8401 ≠ 0 ∧ aOf 0x8401 ≠ 0x1C :=
  ⟨by decide, by decide, by decide, by decide, fun h => absurd h.2 (by decide), by decide, by decide, by decide⟩

/-- Both hypotheses of the SP statement: a skipped SET SP, 1, and SET PUSH, POP. -/
theorem witness_SpAfterAStep :
    steps (stateAt 0 true [0x85B1]) ∧ (stateAt 0 true [0x85B1]).skip = true ∧
      steps (stateAt 0 false [0x61A1]) ∧ opOf 0x61A1 ≠ 0 ∧ aOf 0x61A1 ≠ 0x1B := by decide

/-- A step that starts with a skip pending, one whose condition fails (IFE 1, 2) and one whose condition holds. -/
theorem witness_ControlStatesOfAStep :
    skipAfter (stateAt 0 true [0x8A1C]) = some false ∧ skipAfter (stateAt 0 false [0x8A1C]) = some true ∧
      skipAfter (stateAt 0 false [0x861C]) = some false := by decide

/-- Steps that change a register (SET A, 1), O (SUB A, 1) and a memory Word (SET PUSH, 1; JSR A). -/
theorem witness_StepWritesOnlyItsDestination :
    aAfter (stateAt 0 false [0x8401]) = some 1 ∧ oAfter (stateAt 0 false [0x8403]) = some 0xFFFF ∧
      memAfter (stateAt 0 false [0x85A1]) 0xFFFF = some 1 ∧ memAfter (stateAt 0 false [0x0010]) 0xFFFF = some 1 := by
  decide

theorem witness_StepReadsNeitherCyclesNorFreeIndex : steps (stateAt 0 false [0x8403]) ∧ steps (stateAt 0 true [0x0020]) := by
  decide

/-- All three endings, from running states. -/
theorem witness_StepEndsInNextOrOneOfTwoFaults :
    steps (stateAt 0 false [0x8401]) ∧ (stateAt 0 false [0x8401]).status = .running ∧
      faultOf (step (stateAt 0 false [0xFC01])) = some (.invalidOperand (invalidOperandRecord 0 0xFC01 .b 0x3F)) ∧
      faultOf (step State.reset) = some (.unknownOpcode (unknownOpcodeRecord 0 0)) := by decide

/-- a = 0x3F of a basic word, b = 0x3F of an extended word, and the extended opcode 0x3F, which is no operand. -/
theorem witness_InvalidOperandExactlyOnCode3F :
    (stateAt 0 true [0x03F1]).status = .running ∧
      faultOf (step (stateAt 0 true [0x03F1])) = some (.invalidOperand (invalidOperandRecord 0 0x03F1 .a 0x3F)) ∧
      faultOf (step (stateAt 0 false [0xFC20])) = some (.invalidOperand (invalidOperandRecord 0 0xFC20 .b 0x3F)) ∧
      faultOf (step (stateAt 0 false [0x03F0])) = some (.unknownOpcode (unknownOpcodeRecord 0 0x03F0)) := by decide

/-- Executed and skipped, with a next word. -/
theorem witness_UnknownOpcodeExactlyWhenExecuted :
    (stateAt 0xFFFF false [0x7C20]).status = .running ∧
      faultOf (step (stateAt 0xFFFF false [0x7C20])) = some (.unknownOpcode (unknownOpcodeRecord 0xFFFF 0x7C20)) ∧
      pcSpCycles (stateAt 0xFFFF true [0x7C20]) = some (1, 0, 4) := by decide

theorem witness_FaultRecordNamesTheInstruction :
    State.reset.status = .running ∧ faultOf (step State.reset) = some (.unknownOpcode (unknownOpcodeRecord 0 0)) ∧
      (stateAt 0xFFFF true [0xFFF1]).status = .running ∧
      faultOf (step (stateAt 0xFFFF true [0xFFF1]))
        = some (.invalidOperand (invalidOperandRecord 0xFFFF 0xFFF1 .a 0x3F)) := by decide

theorem witness_FaultHaltsForGood :
    State.reset.status = .running ∧ step State.reset = .fault (.unknownOpcode (unknownOpcodeRecord 0 0)) := ⟨rfl, rfl⟩

theorem witness_LoadedImageStandsAtZero :
    ([] : List Word).length ≤ 65536 ∧ (List.replicate 65536 (1 : Word)).length ≤ 65536 :=
  ⟨Nat.zero_le _, Nat.le_of_eq List.length_replicate⟩

theorem witness_LongImageIsRefused : (List.replicate 65537 (1 : Word)).length > 65536 := by
  rw [List.length_replicate]; omega

/-- A run of one step that is made, and one that faults at step 1. -/
theorem witness_DriverTellsTheTwoEndingsApart :
    drive 1 (placed 0 [0x8401]) = .ran ((placed 0 [0x8401]).advance.setReg .a 1) ∧
      drive 2 State.reset = .haltedAt 1 (unknownOpcodeRecord 0 0) := ⟨rfl, rfl⟩

theorem witness_SelfLoopStaysInPlace :
    (stateAt 0xFFFF false [0x85C3]).status = .running ∧ (stateAt 0xFFFF false [0x85C3]).skip = false ∧
      (stateAt 0xFFFF false [0x85C3]).wordAtPc = 0x85C3 ∧ (stateAt 0 false [0x85C3]).wordAtPc = 0x85C3 := by decide

theorem witness_StepKeepsMemoryCanonical :
    (stateAt 0 false [0x7DE1, 0xFFFF, 0x7FFF]).mem.wf ∧ steps (stateAt 0 false [0x7DE1, 0xFFFF, 0x7FFF]) := by decide

/-- A running state that faults, and a halted one. -/
theorem witness_CallKeepsTheInvariant :
    State.reset.Inv ∧ (faultOf (step State.reset)).isSome ∧
      State.Inv { State.reset with status := .halted (unknownOpcodeRecord 0 0) } := by decide

theorem witness_LoadKeepsTheInvariant :
    State.reset.Inv ∧ (nextOf (load [0x8401, 0, 0xFFFF] State.reset)).isSome := by decide

end Sys2Proof.Machine.Tests
end

section
/-! The numbers of the opcodes: which alu function the handler of a basic opcode calls (R76, R171, R204), and what an
operand code says about its operand form (R72). -/

namespace Sys2Proof.Machine
open Sys2Proof.Claims

/-! ## Opcodes -/

/-- The alu function of a basic opcode. `exec_of_basicOf` ties it to exec. Opcode 0 is no basic opcode. -/
def aluOf (op : BitVec 4) : Word → Word → AluOut :=
  match op.toNat with
  | 0x1 => aluSet
  | 0x2 => aluAdd
  | 0x3 => aluSub
  | 0x4 => aluMul
  | 0x5 => aluDiv
  | 0x6 => aluMod
  | 0x7 => aluShl
  | 0x8 => aluShr
  | 0x9 => aluAnd
  | 0xA => aluBor
  | 0xB => aluXor
  | 0xC => aluIfe
  | 0xD => aluIfn
  | 0xE => aluIfg
  | _ => aluIfb

/-- Every basic instruction is `runBasic` with its opcode and that opcode's alu function. -/
theorem exec_of_basicOf {op : BitVec 4} {mk : Operand → Operand → Instr} (h : basicOf op = some mk) (a b : Operand)
    (s : State) : exec (mk a b) s = runBasic op (aluOf op) a b s := by
  obtain ⟨⟨n, hn⟩⟩ := op
  interval_cases n <;> cases h <;> rfl

theorem basicOf_eq_none {op : BitVec 4} : basicOf op = none ↔ op = 0 := by
  have all : ∀ op : BitVec 4, (basicOf op).isNone = decide (op = 0) := by decide
  rw [← Option.isNone_iff_eq_none, all, decide_eq_true_iff]

theorem opcode_ne_zero {op : BitVec 4} {mk : Operand → Operand → Instr} (h : basicOf op = some mk) : op ≠ 0 :=
  fun e => by rw [basicOf_eq_none.2 e] at h; cases h

theorem extendedOf_eq_some {xop : BitVec 6} {mk : Operand → Instr} : extendedOf xop = some mk ↔ xop = 1 ∧ mk = .jsr := by
  unfold extendedOf
  split
  next h => simp [BitVec.eq_of_toNat_eq (y := 1) h, eq_comm]
  next h => simpa using fun e _ => h (by simp [e])

/-- Whether the alu function of an opcode only requests a skip (R204). -/
def AluOut.requestsSkip : AluOut → Bool
  | .skipRequest _ => true
  | .result _ | .resultThenO _ _ | .oThenResult _ _ => false

/-- Whether an alu result has a new O (R171). -/
def AluOut.writesO : AluOut → Bool
  | .resultThenO _ _ | .oThenResult _ _ => true
  | .result _ | .skipRequest _ => false

/-- The opcodes whose alu function gives a result for operand a are those of the column 'writes a' of R76. -/
theorem aluOf_requestsSkip (op : BitVec 4) (va vb : Word) :
    (aluOf op va vb).requestsSkip = !decide (1 ≤ op.toNat ∧ op.toNat ≤ 0xB) := by
  obtain ⟨⟨n, hn⟩⟩ := op
  interval_cases n <;> rfl

/-- The opcodes whose alu function gives a new O are those of the column 'writes O' of R76. -/
theorem aluOf_writesO (op : BitVec 4) (va vb : Word) :
    (aluOf op va vb).writesO = decide (op ∈ ([0x2, 0x3, 0x4, 0x5, 0x7, 0x8] : List (BitVec 4))) := by
  obtain ⟨⟨n, hn⟩⟩ := op
  interval_cases n <;> rfl

/-- The instruction's own column 'writes O' agrees with its alu function. -/
theorem writesO_of_basicOf {op : BitVec 4} {mk : Operand → Operand → Instr} (h : basicOf op = some mk) (a b : Operand)
    (va vb : Word) : writesO (mk a b) = (aluOf op va vb).writesO := by
  obtain ⟨⟨n, hn⟩⟩ := op
  interval_cases n <;> cases h <;> rfl

/-- The instructions of the column 'writes a' have the opcodes 0x1 to 0xB. -/
theorem basicOf_of_mem_writing {mk : Operand → Operand → Instr} (h : mk ∈ writing) :
    ∃ op : BitVec 4, basicOf op = some mk ∧ 1 ≤ op.toNat ∧ op.toNat ≤ 0xB := by
  obtain ⟨i, hi, rfl⟩ := List.mem_iff_getElem.1 h
  refine ⟨BitVec.ofNat 4 (i + 1), ?_⟩
  have hi : i < 11 := hi
  interval_cases i <;> exact ⟨rfl, by decide⟩

/-! ## Operand codes -/

theorem nwc_code (c : Operand) : nwc c.code = c.nextWords := by
  cases c with
  | reg r => cases r <;> rfl
  | ind r => cases r <;> rfl
  | idx r => cases r <;> rfl
  | lit v => revert v; decide
  | pop | peek | push | sp | pc | o | memNext | next => rfl

theorem spDelta_code (c : Operand) : spDelta c.code = spChange c := by
  cases c with
  | reg r => cases r <;> rfl
  | ind r => cases r <;> rfl
  | idx r => cases r <;> rfl
  | lit v => revert v; decide
  | pop | peek | push | sp | pc | o | memNext | next => rfl

theorem nwc_of_ofCode {n : BitVec 6} {c : Operand} (h : Operand.ofCode n = some c) : nwc n = c.nextWords := by
  rw [← (Operand.code_of_ofCode h).2, nwc_code]

theorem spDelta_of_ofCode {n : BitVec 6} {c : Operand} (h : Operand.ofCode n = some c) : spDelta n = spChange c := by
  rw [← (Operand.code_of_ofCode h).2, spDelta_code]

/-! ## Which operand form a location comes from -/

theorem eq_reg_of_resolve {c : Operand} {r : Reg} {s t : State} (h : resolve c s = some (.reg r, t)) : c = .reg r := by
  cases c <;> simp_all [resolve, Config.lit1fWritable]

theorem eq_sp_of_resolve {c : Operand} {s t : State} (h : resolve c s = some (.sp, t)) : c = .sp := by
  cases c <;> simp_all [resolve, Config.lit1fWritable]

theorem eq_o_of_resolve {c : Operand} {s t : State} (h : resolve c s = some (.o, t)) : c = .o := by
  cases c <;> simp_all [resolve, Config.lit1fWritable]

/-- The codes that name a memory cell (R105 to R109, R113, R114). -/
theorem code_of_resolve_mem {c : Operand} {k : Word} {s t : State} (h : resolve c s = some (.mem k, t)) :
    (0x08 ≤ c.code.toNat ∧ c.code.toNat ≤ 0x1A) ∨ c.code = 0x1E ∨ c.code = 0x1F := by
  cases c with
  | reg r => simp [resolve] at h
  | ind r => cases r <;> decide
  | idx r => cases r <;> decide
  | lit v => simp [resolve] at h
  | sp | pc | o => simp [resolve] at h
  | pop | peek | push | memNext | next => decide

end Sys2Proof.Machine
end

section
/-! What a location's write, a handler's commit and a JSR leave unchanged, field by field, and the choice between skipping
and executing. -/

namespace Sys2Proof.Machine

variable (u : State) {la : Loc}

/-! ## A write through a location -/

theorem State.reg_writeLoc_ne {r : Reg} (h : la ≠ .reg r) (v : Word) : (u.writeLoc la v).reg r = u.reg r := by
  cases la with
  | reg q => exact State.reg_setReg_ne u q r v fun e => h (e ▸ rfl)
  | sp | pc | o | mem k | lit w => rfl

theorem State.sp_writeLoc_ne (h : la ≠ .sp) (v : Word) : (u.writeLoc la v).sp = u.sp := by
  cases la with
  | sp => exact absurd rfl h
  | reg q | pc | o | mem k | lit w => rfl

theorem State.pc_writeLoc_ne (h : la ≠ .pc) (v : Word) : (u.writeLoc la v).pc = u.pc := by
  cases la with
  | pc => exact absurd rfl h
  | reg q | sp | o | mem k | lit w => rfl

theorem State.o_writeLoc_ne (h : la ≠ .o) (v : Word) : (u.writeLoc la v).o = u.o := by
  cases la with
  | o => exact absurd rfl h
  | reg q | sp | pc | mem k | lit w => rfl

theorem Memory.readByte_writeWord_ne (m : Memory) {k : Word} {n : Nat} (h : n ≠ 2 * k.toNat ∧ n ≠ 2 * k.toNat + 1)
    (v : Word) : (m.writeWord k v).readByte n = m.readByte n := by
  rw [Memory.readByte_writeWord, if_neg h.2, if_neg h.1]

theorem State.readByte_writeLoc_ne {n : Nat} (h : ∀ k : Word, la = .mem k → n ≠ 2 * k.toNat ∧ n ≠ 2 * k.toNat + 1)
    (v : Word) : (u.writeLoc la v).mem.readByte n = u.mem.readByte n := by
  cases la with
  | mem k => exact Memory.readByte_writeWord_ne u.mem (h k rfl) v
  | reg q | sp | pc | o | lit w => rfl

/-! ## A handler's commit -/

/-- A skip request sets the flag when it is granted, and does nothing else (R204). -/
theorem State.commit_of_requestsSkip {out : AluOut} (h : out.requestsSkip = true) :
    u.commit la out = { u with skip := u.skip || decide (out = .skipRequest true) } := by
  cases out with
  | skipRequest b => cases b <;> simp [State.commit, State.setSkip]
  | result r | resultThenO r o | oThenResult o r => cases h

/-- The flag after a commit: set before, or requested. -/
theorem State.skip_commit (out : AluOut) : (u.commit la out).skip = (u.skip || decide (out = .skipRequest true)) := by
  cases out with
  | skipRequest b => rw [State.commit_of_requestsSkip u rfl]
  | result v | resultThenO v o | oThenResult o v => simp [State.commit, State.writeLoc_skip]

theorem State.skip_commit_of_result {out : AluOut} (h : out.requestsSkip = false) :
    (u.commit la out).skip = u.skip := by
  have hne : out ≠ .skipRequest true := fun e => by rw [e] at h; cases h
  rw [State.skip_commit, decide_eq_false hne, Bool.or_false]

theorem State.reg_commit_ne {r : Reg} (h : la ≠ .reg r) (out : AluOut) : (u.commit la out).reg r = u.reg r := by
  cases out with
  | skipRequest b => rw [State.commit_of_requestsSkip u rfl]; rfl
  | result v | resultThenO v o => exact State.reg_writeLoc_ne u h v
  | oThenResult o v => exact State.reg_writeLoc_ne (u.setO o) h v

theorem State.sp_commit_ne (h : la ≠ .sp) (out : AluOut) : (u.commit la out).sp = u.sp := by
  cases out with
  | skipRequest b => rw [State.commit_of_requestsSkip u rfl]
  | result v | resultThenO v o => exact State.sp_writeLoc_ne u h v
  | oThenResult o v => exact State.sp_writeLoc_ne (u.setO o) h v

theorem State.pc_commit_ne (h : la ≠ .pc) (out : AluOut) : (u.commit la out).pc = u.pc := by
  cases out with
  | skipRequest b => rw [State.commit_of_requestsSkip u rfl]
  | result v | resultThenO v o => exact State.pc_writeLoc_ne u h v
  | oThenResult o v => exact State.pc_writeLoc_ne (u.setO o) h v

theorem State.o_commit_ne (h : la ≠ .o) {out : AluOut} (ho : out.writesO = false) : (u.commit la out).o = u.o := by
  cases out with
  | skipRequest b => rw [State.commit_of_requestsSkip u rfl]
  | result v => exact State.o_writeLoc_ne u h v
  | resultThenO v o | oThenResult o v => cases ho

theorem State.readByte_commit_ne {n : Nat} (h : ∀ k : Word, la = .mem k → n ≠ 2 * k.toNat ∧ n ≠ 2 * k.toNat + 1)
    (out : AluOut) : (u.commit la out).mem.readByte n = u.mem.readByte n := by
  cases out with
  | skipRequest b => rw [State.commit_of_requestsSkip u rfl]
  | result v | resultThenO v o => exact State.readByte_writeLoc_ne u h v
  | oThenResult o v => exact State.readByte_writeLoc_ne (u.setO o) h v

/-- A cell that a commit changes is one of the two of the Word its location names. -/
theorem State.loc_of_readByte_commit_ne {n : Nat} {out : AluOut}
    (h : (u.commit la out).mem.readByte n ≠ u.mem.readByte n) :
    ∃ k : Word, la = .mem k ∧ (n = 2 * k.toNat ∨ n = 2 * k.toNat + 1) := by
  by_contra hno
  exact h (State.readByte_commit_ne u (fun k hk => not_or.1 fun hn => hno ⟨k, hk, hn⟩) out)

/-! ## JSR -/

variable (lb : Loc)

@[simp] theorem jsrHandler_regs : (jsrHandler lb u).regs = u.regs := rfl
@[simp] theorem jsrHandler_sp : (jsrHandler lb u).sp = u.sp - 1 := rfl
@[simp] theorem jsrHandler_o : (jsrHandler lb u).o = u.o := rfl
@[simp] theorem jsrHandler_skip : (jsrHandler lb u).skip = u.skip := rfl
@[simp] theorem jsrHandler_cycles : (jsrHandler lb u).cycles = u.cycles := rfl
@[simp] theorem jsrHandler_mem : (jsrHandler lb u).mem = u.mem.writeWord (u.sp - 1) u.pc := rfl
@[simp] theorem jsrHandler_status : (jsrHandler lb u).status = u.status := rfl
@[simp] theorem jsrHandler_freeIndex : (jsrHandler lb u).freeIndex = u.freeIndex := rfl

/-! ## Skip or execute -/

@[simp] theorem skipOr_of_skip {handler : State → State} {s : State} (h : s.skip = true) :
    skipOr handler s = s.suppress := if_pos h

@[simp] theorem skipOr_of_not_skip {handler : State → State} {s : State} (h : s.skip = false) :
    skipOr handler s = handler s := by simp [skipOr, h]

/-- What holds of a suppressed and of an executed instruction holds of both. -/
theorem skipOr_induction {P : State → Prop} {handler : State → State} (hs : P u.suppress) (hh : P (handler u)) :
    P (skipOr handler u) := by
  cases h : u.skip with
  | true => rwa [skipOr_of_skip h]
  | false => rwa [skipOr_of_not_skip h]

end Sys2Proof.Machine
end

section
/-! What one step can do, said once: the decoder's answers in both directions, the state that fetch and resolutions leave,
the next states of a step (`StepTo`), and the record of a step that faults. -/

namespace Sys2Proof.Machine
open Sys2Proof.Claims

/-! ## The decoder's answers -/

theorem decode_basic {w : Word} {mk : Operand → Operand → Instr} {a b : Operand} (hop : basicOf (opOf w) = some mk)
    (ha : Operand.ofCode (aOf w) = some a) (hb : Operand.ofCode (bOf w) = some b) : decode w = .ok (mk a b) := by
  simp [decode, decodeBasic, hop, ha, hb]

theorem decode_jsr {w : Word} {b : Operand} (hop : opOf w = 0) (hx : aOf w = 1)
    (hb : Operand.ofCode (bOf w) = some b) : decode w = .ok (.jsr b) := by
  simp [decode, decodeExtended, basicOf_eq_none.2 hop, extendedOf_eq_some.2 ⟨hx, rfl⟩, hb]

/-- R79, R84: a decoded word is a basic instruction or JSR, with the operand forms of its codes. -/
theorem decode_ok {w : Word} {i : Instr} (h : decode w = .ok i) :
    (∃ mk a b, basicOf (opOf w) = some mk ∧ Operand.ofCode (aOf w) = some a ∧ Operand.ofCode (bOf w) = some b ∧
      i = mk a b) ∨
    (opOf w = 0 ∧ aOf w = 1 ∧ ∃ b, Operand.ofCode (bOf w) = some b ∧ i = .jsr b) := by
  unfold decode decodeBasic decodeExtended at h
  cases hop : basicOf (opOf w) with
  | some mk =>
    cases ha : Operand.ofCode (aOf w) <;> cases hb : Operand.ofCode (bOf w) <;> simp [hop, ha, hb] at h
    exact .inl ⟨mk, _, _, rfl, rfl, rfl, h.symm⟩
  | none =>
    cases hb : Operand.ofCode (bOf w) <;> cases hx : extendedOf (aOf w) <;> simp [hop, hb, hx] at h
    obtain ⟨hxop, rfl⟩ := extendedOf_eq_some.1 hx
    exact .inr ⟨basicOf_eq_none.1 hop, hxop, _, rfl, h.symm⟩

/-- R79: a rejected word has code 0x3F in an operand field, or is an extended word that is not JSR. -/
theorem decode_error {w : Word} {r : Reject} (h : decode w = .error r) :
    (opOf w ≠ 0 ∧ aOf w = 0x3F ∧ r = .invalidOperand .a (aOf w)) ∨
    (bOf w = 0x3F ∧ r = .invalidOperand .b (bOf w)) ∨
    (opOf w = 0 ∧ aOf w ≠ 1 ∧ ∃ b, Operand.ofCode (bOf w) = some b ∧ r = .unknownOpcode (aOf w) b) := by
  unfold decode decodeBasic decodeExtended at h
  cases hop : basicOf (opOf w) with
  | some mk =>
    cases ha : Operand.ofCode (aOf w) with
    | none => exact .inl ⟨opcode_ne_zero hop, Operand.ofCode_eq_none.1 ha, by simpa [hop, ha, eq_comm] using h⟩
    | some a =>
      cases hb : Operand.ofCode (bOf w) <;> simp [hop, ha, hb] at h
      exact .inr (.inl ⟨Operand.ofCode_eq_none.1 hb, h.symm⟩)
  | none =>
    cases hb : Operand.ofCode (bOf w) with
    | none => exact .inr (.inl ⟨Operand.ofCode_eq_none.1 hb, by simpa [hop, hb, eq_comm] using h⟩)
    | some b =>
      cases hx : extendedOf (aOf w) <;> simp [hop, hb, hx] at h
      refine .inr (.inr ⟨basicOf_eq_none.1 hop, fun e => ?_, b, rfl, h.symm⟩)
      rw [extendedOf_eq_some.2 ⟨e, rfl⟩] at hx
      cases hx

theorem decode_unknown {w : Word} {b : Operand} (hop : opOf w = 0) (hx : aOf w ≠ 1)
    (hb : Operand.ofCode (bOf w) = some b) : decode w = .error (.unknownOpcode (aOf w) b) := by
  have : extendedOf (aOf w) = none := Option.eq_none_iff_forall_ne_some.2 fun mk e => hx (extendedOf_eq_some.1 e).1
  simp [decode, decodeExtended, basicOf_eq_none.2 hop, this, hb]

/-! ## The state that the fetch and the resolutions leave -/

/-- The state after both resolutions of a basic instruction. -/
theorem resolve_both_state {a b : Operand} {s s1 u : State} {la lb : Loc} (ha : resolve a s = some (la, s1))
    (hb : resolve b s1 = some (lb, u)) :
    u = { s with
      pc := s.pc + BitVec.ofNat 16 (a.nextWords + b.nextWords)
      sp := s.sp + spChange a + spChange b
      cycles := s.cycles + a.nextWords + b.nextWords } := by
  rw [resolve_state hb, resolve_state ha]
  simp [BitVec.ofNat_add, BitVec.add_assoc]

/-- The state that an instruction word's fetch and resolutions leave: it depends on the word alone (R73, R107, R109). -/
def State.afterOperands (s : State) (w : Word) : State :=
  { s with
    pc := s.pc + BitVec.ofNat 16 (wordLength w)
    sp := s.sp + wordSpDelta w
    cycles := s.cycles + wordLength w }

theorem resolve_basic_state {w : Word} {mk : Operand → Operand → Instr} {a b : Operand} {s s1 u : State} {la lb : Loc}
    (hop : basicOf (opOf w) = some mk) (hac : Operand.ofCode (aOf w) = some a) (hbc : Operand.ofCode (bOf w) = some b)
    (ha : resolve a s.advance = some (la, s1)) (hb : resolve b s1 = some (lb, u)) : u = s.afterOperands w := by
  have hop : opOf w ≠ 0#4 := opcode_ne_zero hop
  rw [resolve_both_state ha hb]
  simp [State.afterOperands, wordLength, wordSpDelta, hop, nwc_of_ofCode hac, nwc_of_ofCode hbc,
    spDelta_of_ofCode hac, spDelta_of_ofCode hbc, BitVec.ofNat_add, BitVec.add_assoc, Nat.add_assoc]

theorem resolve_extended_state {w : Word} {b : Operand} {s u : State} {lb : Loc} (hop : opOf w = 0)
    (hbc : Operand.ofCode (bOf w) = some b) (hb : resolve b s.advance = some (lb, u)) : u = s.afterOperands w := by
  rw [resolve_state hb]
  simp [State.afterOperands, wordLength, wordSpDelta, hop, nwc_of_ofCode hbc, spDelta_of_ofCode hbc, BitVec.ofNat_add,
    BitVec.add_assoc, Nat.add_assoc]

/-! ## The next states of a step -/

/-- The three ways a step goes on: a basic instruction, JSR, each skipped or run, and a skipped unknown extended word. -/
inductive StepTo (s : State) : State → Prop
  | basic {mk : Operand → Operand → Instr} {a b : Operand} {la lb : Loc} {s1 u : State}
      (hop : basicOf (opOf s.wordAtPc) = some mk)
      (hac : Operand.ofCode (aOf s.wordAtPc) = some a) (hbc : Operand.ofCode (bOf s.wordAtPc) = some b)
      (ha : resolve a s.advance = some (la, s1)) (hb : resolve b s1 = some (lb, u)) :
      StepTo s (skipOr (basicHandler (aluOf (opOf s.wordAtPc)) la lb) u)
  | jsr {b : Operand} {lb : Loc} {u : State} (hop : opOf s.wordAtPc = 0) (hx : aOf s.wordAtPc = 1)
      (hbc : Operand.ofCode (bOf s.wordAtPc) = some b) (hb : resolve b s.advance = some (lb, u)) :
      StepTo s (skipOr (jsrHandler lb) u)
  | skippedUnknown {b : Operand} {lb : Loc} {u : State} (hop : opOf s.wordAtPc = 0) (hx : aOf s.wordAtPc ≠ 1)
      (hbc : Operand.ofCode (bOf s.wordAtPc) = some b) (hb : resolve b s.advance = some (lb, u)) (hskip : s.skip = true) :
      StepTo s u.suppress

theorem stepTo_of_step {s t : State} (h : step s = .next t) : StepTo s t := by
  obtain ⟨-, ⟨i, hd, he⟩ | ⟨r, hd, he⟩⟩ := step_next h
  · obtain ⟨mk, a, b, hop, hac, hbc, rfl⟩ | ⟨hop, hx, b, hbc, rfl⟩ := decode_ok hd
    · rw [exec_of_basicOf hop] at he
      obtain ⟨la, s1, lb, u, ha, hb, e⟩ | ⟨-, e⟩ | ⟨-, -, e⟩ := runBasic_cases (opOf s.wordAtPc) _ a b s.advance
      all_goals cases e.symm.trans he
      exact .basic hop hac hbc ha hb
    · rw [exec_jsr] at he
      obtain ⟨lb, u, hb, e⟩ | ⟨-, e⟩ := runExtended_cases 0x01 jsrHandler b s.advance
      all_goals cases e.symm.trans he
      exact .jsr hop hx hbc hb
  · obtain ⟨xop, b, lb, u, rfl, hskip, hb, rfl⟩ := runRejected_next he
    obtain ⟨-, -, e⟩ | ⟨-, e⟩ | ⟨hop, hx, b', hbc, e⟩ := decode_error hd <;> cases e
    exact .skippedUnknown hop hx hbc hb hskip

/-- `StepTo` is exactly what a running core's step answers. -/
theorem step_eq_next_iff {s t : State} : step s = .next t ↔ s.status = .running ∧ StepTo s t := by
  refine ⟨fun h => ⟨(step_next h).1, stepTo_of_step h⟩, fun ⟨hs, h⟩ => ?_⟩
  unfold step
  rw [hs]
  cases h with
  | basic hop hac hbc ha hb => simp [decode_basic hop hac hbc, exec_of_basicOf hop, runBasic, ha, hb]
  | jsr hop hx hbc hb => simp [decode_jsr hop hx hbc, exec_jsr, runExtended, hb]
  | skippedUnknown hop hx hbc hb hskip =>
    have hu := resolve_state hb
    simp [decode_unknown hop hx hbc, runRejected, runUnknown, hb, hu, hskip, Config.unknownExtUnderSkip]

/-- R145, R119: the whole next state of a step that starts with a skip pending, whatever its word. -/
theorem StepTo.of_skip {s t : State} (h : StepTo s t) (hs : s.skip = true) :
    t = (s.afterOperands s.wordAtPc).suppress := by
  cases h with
  | basic hop hac hbc ha hb =>
    rw [resolve_basic_state hop hac hbc ha hb]
    exact skipOr_of_skip hs
  | jsr hop hx hbc hb =>
    rw [resolve_extended_state hop hbc hb]
    exact skipOr_of_skip hs
  | skippedUnknown hop hx hbc hb => rw [resolve_extended_state hop hbc hb]

/-- An instruction word that writes no operand a only requests a skip. -/
theorem requestsSkip_of_not_writesA {w : Word} (h : ¬ writesA w) (va vb : Word) :
    (aluOf (opOf w) va vb).requestsSkip = true := by
  rw [aluOf_requestsSkip, decide_eq_false (p := 1 ≤ (opOf w).toNat ∧ (opOf w).toNat ≤ 0xB) h, Bool.not_false]

/-- The three ways a step that starts with no skip pending goes on: a writing instruction commits its result, a
conditional sets the flag as its condition asks, and JSR jumps. -/
inductive Executes (s : State) : State → Prop
  | writes {mk : Operand → Operand → Instr} {a b : Operand} {la lb : Loc} {s1 u : State}
      (hop : basicOf (opOf s.wordAtPc) = some mk)
      (hac : Operand.ofCode (aOf s.wordAtPc) = some a) (hbc : Operand.ofCode (bOf s.wordAtPc) = some b)
      (ha : resolve a s.advance = some (la, s1)) (hb : resolve b s1 = some (lb, u)) (hw : writesA s.wordAtPc) :
      Executes s (u.commit la (aluOf (opOf s.wordAtPc) (u.readLoc la) (u.readLoc lb)))
  | tests {mk : Operand → Operand → Instr} {a b : Operand} {la lb : Loc} {s1 u : State}
      (hop : basicOf (opOf s.wordAtPc) = some mk)
      (hac : Operand.ofCode (aOf s.wordAtPc) = some a) (hbc : Operand.ofCode (bOf s.wordAtPc) = some b)
      (ha : resolve a s.advance = some (la, s1)) (hb : resolve b s1 = some (lb, u)) (hw : ¬ writesA s.wordAtPc) :
      Executes s
        { u with skip := decide (aluOf (opOf s.wordAtPc) (u.readLoc la) (u.readLoc lb) = .skipRequest true) }
  | jsr {b : Operand} {lb : Loc} {u : State} (hop : opOf s.wordAtPc = 0) (hx : aOf s.wordAtPc = 1)
      (hbc : Operand.ofCode (bOf s.wordAtPc) = some b) (hb : resolve b s.advance = some (lb, u)) :
      Executes s (jsrHandler lb u)

theorem StepTo.of_not_skip {s t : State} (h : StepTo s t) (hs : s.skip = false) : Executes s t := by
  cases h with
  | @basic mk a b la lb s1 u hop hac hbc ha hb =>
    have hu : u.skip = false := by rw [resolve_basic_state hop hac hbc ha hb]; exact hs
    rw [skipOr_of_not_skip hu, basicHandler]
    by_cases hw : writesA s.wordAtPc
    · exact .writes hop hac hbc ha hb hw
    · rw [State.commit_of_requestsSkip u (requestsSkip_of_not_writesA hw _ _), hu, Bool.false_or]
      exact .tests hop hac hbc ha hb hw
  | jsr hop hx hbc hb =>
    rw [skipOr_of_not_skip (by rw [resolve_extended_state hop hbc hb]; exact hs)]
    exact .jsr hop hx hbc hb
  | skippedUnknown hop hx hbc hb hskip => exact absurd (hskip.symm.trans hs) (by decide)

/-! ## The faults of a step -/

theorem invalidOperandRecord_wf_a {w : Word} (k : Word) (hop : opOf w ≠ 0) (ha : aOf w = 0x3F) :
    (invalidOperandRecord k w .a (aOf w)).wf = true := by
  simpa [FaultRecord.wf, invalidOperandRecord, ha] using hop

theorem invalidOperandRecord_wf_b {w : Word} (k : Word) (hb : bOf w = 0x3F) :
    (invalidOperandRecord k w .b (bOf w)).wf = true := by
  simp [FaultRecord.wf, invalidOperandRecord, hb]

theorem unknownOpcodeRecord_wf {w : Word} (k : Word) (hop : opOf w = 0) (hx : aOf w ≠ 1) :
    (unknownOpcodeRecord k w).wf = true := by
  simpa [FaultRecord.wf, unknownOpcodeRecord, hop] using hx

/-- An instruction the decoder gave does not fault: its operands are legal (R240). -/
theorem exec_decoded_completes {w : Word} {i : Instr} (s : State) (h : decode w = .ok i) : ∃ t, exec i s = .next t := by
  obtain ⟨mk, a, b, hop, hac, hbc, rfl⟩ | ⟨hop, hx, b, hbc, rfl⟩ := decode_ok h
  · obtain ⟨la, s1, ha⟩ := resolve_of_wf s (Operand.code_of_ofCode hac).1
    obtain ⟨lb, u, hb⟩ := resolve_of_wf s1 (Operand.code_of_ofCode hbc).1
    exact ⟨_, by rw [exec_of_basicOf hop]; simp [runBasic, ha, hb]; rfl⟩
  · obtain ⟨lb, u, hb⟩ := resolve_of_wf s (Operand.code_of_ofCode hbc).1
    exact ⟨_, by rw [exec_jsr]; simp [runExtended, hb]; rfl⟩

/-- The three faults a running core's step can raise, with the records of R245: code 0x3F in a, code 0x3F in b, and an
unknown extended opcode. -/
theorem step_fault {s : State} {f : Fault} (hs : s.status = .running) (h : step s = .fault f) :
    (opOf s.wordAtPc ≠ 0 ∧ aOf s.wordAtPc = 0x3F ∧
      f = .invalidOperand (invalidOperandRecord s.pc s.wordAtPc .a (aOf s.wordAtPc))) ∨
    (bOf s.wordAtPc = 0x3F ∧ f = .invalidOperand (invalidOperandRecord s.pc s.wordAtPc .b (bOf s.wordAtPc))) ∨
    (opOf s.wordAtPc = 0 ∧ aOf s.wordAtPc ≠ 1 ∧ s.skip = false ∧
      f = .unknownOpcode (unknownOpcodeRecord s.pc s.wordAtPc)) := by
  have hpc : s.advance.pc - 1 = s.pc := by simp
  unfold step at h
  rw [hs] at h
  cases hd : decode s.wordAtPc with
  | ok i =>
    obtain ⟨t, e⟩ := exec_decoded_completes s.advance hd
    simp [hd, e] at h
  | error r =>
    simp only [hd] at h
    obtain ⟨hop, ha, rfl⟩ | ⟨hb, rfl⟩ | ⟨hop, hx, b, hbc, rfl⟩ := decode_error hd
    · rw [runRejected, hpc] at h
      exact .inl ⟨hop, ha, by cases h; rfl⟩
    · rw [runRejected, hpc] at h
      exact .inr (.inl ⟨hb, by cases h; rfl⟩)
    · rw [runRejected] at h
      obtain ⟨lb, u, -, -, e⟩ | ⟨-, hskip, e⟩ | ⟨hwf, -⟩ := runUnknown_cases s.wordAtPc b s.advance
      · cases e.symm.trans h
      · rw [hpc] at e
        exact .inr (.inr ⟨hop, hx, hskip, by cases e.symm.trans h; rfl⟩)
      · exact absurd (Operand.code_of_ofCode hbc).1 hwf

/-- R245: the record of a step's fault makes sense. -/
theorem step_fault_record_wf {s : State} {f : Fault} (hs : s.status = .running) (h : step s = .fault f) :
    f.record.wf = true := by
  obtain ⟨hop, ha, rfl⟩ | ⟨hb, rfl⟩ | ⟨hop, hx, -, rfl⟩ := step_fault hs h
  · exact invalidOperandRecord_wf_a _ hop ha
  · exact invalidOperandRecord_wf_b _ hb
  · exact unknownOpcodeRecord_wf _ hop hx

end Sys2Proof.Machine
end

section
/-! The invariant of the core (R32, R35, R50, R245). -/

namespace Sys2Proof.Machine

/-- A step that goes on keeps the run status (R32). -/
theorem StepTo.status_eq {s t : State} (h : StepTo s t) : t.status = s.status := by
  cases h with
  | basic hop hac hbc ha hb =>
    rw [resolve_basic_state hop hac hbc ha hb]
    exact skipOr_induction (P := fun t => t.status = s.status) _ rfl (State.commit_status _ _ _)
  | jsr hop hx hbc hb =>
    rw [resolve_extended_state hop hbc hb]
    exact skipOr_induction (P := fun t => t.status = s.status) _ rfl rfl
  | skippedUnknown hop hx hbc hb => rw [resolve_extended_state hop hbc hb]; rfl

/-- A step that goes on keeps memory in canonical form (R50). -/
theorem StepTo.mem_wf {s t : State} (h : StepTo s t) (hm : s.mem.wf) : t.mem.wf := by
  cases h with
  | basic hop hac hbc ha hb =>
    rw [resolve_basic_state hop hac hbc ha hb]
    exact skipOr_induction (P := fun t => t.mem.wf) _ hm (State.commit_mem_wf (s := s.afterOperands _) _ _ hm)
  | jsr hop hx hbc hb =>
    rw [resolve_extended_state hop hbc hb]
    exact skipOr_induction (P := fun t => t.mem.wf) _ hm (Memory.writeWord_wf _ _ hm)
  | skippedUnknown hop hx hbc hb => rw [resolve_extended_state hop hbc hb]; exact hm

/-- R245: the halted core meets the invariant when its record makes sense, whatever its free values are. -/
theorem State.halt_inv (s : State) {r : FaultRecord} (h : r.wf = true) : (s.halt r).Inv :=
  ⟨Memory.ofCells_wf _, h⟩

theorem call_of_halted {s : State} {r : FaultRecord} (hs : s.status = .halted r) : call s = s := by
  unfold call; rw [hs]

/-- One call of a running core keeps the invariant: it goes on, or it halts with the record of its fault. -/
theorem call_inv_of_running {s : State} (hs : s.status = .running) (h : s.Inv) : (call s).Inv := by
  obtain ⟨hm, hst⟩ := h
  unfold call
  rw [hs]
  cases hstep : step s with
  | next t =>
    have ht := stepTo_of_step hstep
    exact ⟨ht.mem_wf hm, ht.status_eq ▸ hst⟩
  | fault f => exact s.halt_inv (step_fault_record_wf hs hstep)
  | refused r => exact ⟨hm, hst⟩

/-- Settles O59: a halted core is left as it is, and a running one keeps the invariant whether its step goes on or
faults. -/
theorem callKeepsTheInvariant : Obligations.CallKeepsTheInvariant := by
  intro s h
  cases hs : s.status with
  | halted r =>
    rw [call_of_halted hs]
    exact ⟨h, fun q e => hs.trans e⟩
  | running => exact ⟨call_inv_of_running hs h, fun q e => by cases e⟩

/-- Settles O57: the empty memory list is in canonical form. -/
theorem resetMeetsTheInvariant : Obligations.ResetMeetsTheInvariant := ⟨reset_mem_wf, rfl⟩

/-- Settles O52: the empty memory list reads as 0 at every cell, so at every Word. -/
theorem resetIsZeroEverywhere : Obligations.ResetIsZeroEverywhere := by
  refine ⟨fun r => ?_, fun k => ?_, rfl, rfl, rfl, rfl, rfl, rfl⟩
  · cases r <;> rfl
  · change unlistedByte ++ unlistedByte = (0 : Word)
    decide

end Sys2Proof.Machine
end

section
/-! The frame of the writing instructions. -/

namespace Sys2Proof.Machine
open Sys2Proof.Claims

/-- A basic instruction that goes on has resolved b too, and was skipped or executed. -/
theorem exec_basic_next {op : BitVec 4} {mk : Operand → Operand → Instr} {a b : Operand} {s s1 t : State} {la : Loc}
    (hop : basicOf op = some mk) (ha : resolve a s = some (la, s1)) (h : exec (mk a b) s = .next t) :
    ∃ lb u, resolve b s1 = some (lb, u) ∧ t = skipOr (basicHandler (aluOf op) la lb) u := by
  rw [exec_of_basicOf hop] at h
  obtain ⟨la', s1', lb, u, ha', hb, e⟩ | ⟨-, e⟩ | ⟨-, -, e⟩ := runBasic_cases op (aluOf op) a b s
  all_goals cases e.symm.trans h
  cases ha.symm.trans ha'
  exact ⟨lb, u, hb, rfl⟩

/-- Settles O37: a skipped instruction changes nothing but what resolving moves, and an executed one commits one alu
result, which is no skip request. -/
theorem writingInstructionsFrame : Obligations.WritingInstructionsFrame := by
  intro mk hmk a b s s1 t la ha h
  obtain ⟨op, hop, hw⟩ := basicOf_of_mem_writing hmk
  obtain ⟨lb, u, hb, rfl⟩ := exec_basic_next hop ha h
  have hu := resolve_both_state ha hb
  have huskip : u.skip = s.skip := by rw [hu]
  cases hskip : s.skip with
  | true =>
    rw [skipOr_of_skip (huskip.trans hskip), hu]
    exact ⟨fun _ _ => rfl, fun _ _ => rfl, fun _ _ => rfl, fun _ => rfl, fun _ => rfl, rfl, rfl, rfl, rfl⟩
  | false =>
    rw [skipOr_of_not_skip (huskip.trans hskip), basicHandler]
    have hout := aluOf_requestsSkip op (u.readLoc la) (u.readLoc lb)
    rw [decide_eq_true hw, Bool.not_true] at hout
    refine ⟨fun r hr => ?_, fun n hn => ?_, fun hO ho => ?_, fun hsp => ?_, fun hpc => ?_, ?_, ?_, ?_, ?_⟩
    · rw [State.reg_commit_ne u hr, hu]; rfl
    · rw [State.readByte_commit_ne u hn, hu]
    · rw [State.o_commit_ne u ho (writesO_of_basicOf hop a b _ _ ▸ hO), hu]
    · rw [State.sp_commit_ne u hsp, hu]
    · rw [State.pc_commit_ne u hpc, hu]
    · rw [State.skip_commit_of_result u hout, huskip, hskip]
    · rw [State.commit_cycles, hu]; rfl
    · rw [State.commit_status, hu]
    · rw [State.commit_freeIndex, hu]

end Sys2Proof.Machine
end

section
/-! SP, the skip flag and the destination after a step (R22, R26, R28, R31, R55). -/

namespace Sys2Proof.Machine
open Sys2Proof.Claims

/-! ## Which destination an operand code names -/

theorem loc_ne_reg {n : BitVec 6} {a : Operand} {s s1 : State} {la : Loc} {r : Reg} (hac : Operand.ofCode n = some a)
    (ha : resolve a s = some (la, s1)) (hn : n.toNat ≠ r.index) : la ≠ .reg r := by
  rintro rfl
  obtain rfl := eq_reg_of_resolve ha
  obtain ⟨-, rfl⟩ := Operand.code_of_ofCode hac
  exact hn (by cases r <;> rfl)

theorem loc_ne_sp {n : BitVec 6} {a : Operand} {s s1 : State} {la : Loc} (hac : Operand.ofCode n = some a)
    (ha : resolve a s = some (la, s1)) (hn : n ≠ 0x1B) : la ≠ .sp := by
  rintro rfl
  obtain rfl := eq_sp_of_resolve ha
  exact hn (Operand.code_of_ofCode hac).2.symm

theorem loc_ne_o {n : BitVec 6} {a : Operand} {s s1 : State} {la : Loc} (hac : Operand.ofCode n = some a)
    (ha : resolve a s = some (la, s1)) (hn : n ≠ 0x1D) : la ≠ .o := by
  rintro rfl
  obtain rfl := eq_o_of_resolve ha
  exact hn (Operand.code_of_ofCode hac).2.symm

/-! ## SP -/

/-- Settles O43: a skipped step moves SP as the resolutions do, and so does an executed basic one whose destination is
not SP. -/
theorem spAfterAStep : Obligations.SpAfterAStep := by
  intro s t h hcase
  have hst := stepTo_of_step h
  cases hs : s.skip with
  | true => rw [hst.of_skip hs]; rfl
  | false =>
    obtain ⟨hbasic, hdest⟩ := hcase.resolve_left (by simp [hs])
    cases hst.of_not_skip hs with
    | writes hop hac hbc ha hb hw =>
      rw [State.sp_commit_ne _ (loc_ne_sp hac ha (hdest hw)), resolve_basic_state hop hac hbc ha hb]
      rfl
    | tests hop hac hbc ha hb hw => rw [resolve_basic_state hop hac hbc ha hb]; rfl
    | jsr hop => exact absurd hop hbasic

/-! ## The skip flag -/

/-- R31, R204: the condition of a decoded basic instruction fails exactly when its alu function requests a skip. The
split is over the opcodes in number order: the eleven writing instructions have no condition, then the four conditionals
have theirs. -/
theorem conditionFails_iff {op : BitVec 4} {mk : Operand → Operand → Instr} {a b : Operand} {s s1 u : State} {la lb : Loc}
    (hop : basicOf op = some mk) (hd : decode s.wordAtPc = .ok (mk a b)) (ha : resolve a s.advance = some (la, s1))
    (hb : resolve b s1 = some (lb, u)) :
    conditionFails s ↔ aluOf op (u.readLoc la) (u.readLoc lb) = .skipRequest true := by
  obtain ⟨⟨n, hn⟩⟩ := op
  interval_cases n <;> cases hop
  iterate 11 exact iff_of_false (by simp [conditionFails, hd]) nofun
  · simp [conditionFails, hd, ha, hb, aluOf, aluIfe]
  · simp [conditionFails, hd, ha, hb, aluOf, aluIfn]
  · simp [conditionFails, hd, ha, hb, aluOf, aluIfg]
  · simp [conditionFails, hd, ha, hb, aluOf, aluIfb]

/-- JSR is no conditional. -/
theorem not_conditionFails_of_jsr {s : State} {b : Operand} (hd : decode s.wordAtPc = .ok (.jsr b)) :
    ¬ conditionFails s := by
  simp [conditionFails, hd]

/-- Settles O44: a skipped step clears the flag, and an executed one sets it exactly when its alu function requests a
skip. -/
theorem controlStatesOfAStep : Obligations.ControlStatesOfAStep := by
  intro s t h
  have hst := stepTo_of_step h
  refine ⟨fun hs => by rw [hst.of_skip hs]; rfl, fun hs => ?_⟩
  cases hst.of_not_skip hs with
  | writes hop hac hbc ha hb hw =>
    rw [conditionFails_iff hop (decode_basic hop hac hbc) ha hb, State.skip_commit, resolve_basic_state hop hac hbc ha hb]
    simp [State.afterOperands, hs]
  | tests hop hac hbc ha hb hw =>
    rw [conditionFails_iff hop (decode_basic hop hac hbc) ha hb, decide_eq_true_iff]
  | jsr hop hx hbc hb =>
    rw [resolve_extended_state hop hbc hb]
    exact iff_of_false (by simp [State.afterOperands, hs]) (not_conditionFails_of_jsr (decode_jsr hop hx hbc))

/-! ## The destination -/

/-- R22, R76: an executed step changes a general register only as the operand a of a writing instruction. -/
theorem Executes.reg_change {s t : State} (h : Executes s t) {r : Reg} (hr : t.reg r ≠ s.reg r) :
    writesA s.wordAtPc ∧ (aOf s.wordAtPc).toNat = r.index := by
  cases h with
  | writes hop hac hbc ha hb hw =>
    refine ⟨hw, by_contra fun hn => hr ?_⟩
    rw [State.reg_commit_ne _ (loc_ne_reg hac ha hn), resolve_basic_state hop hac hbc ha hb]
    rfl
  | tests hop hac hbc ha hb hw => rw [resolve_basic_state hop hac hbc ha hb] at hr; exact absurd rfl hr
  | jsr hop hx hbc hb => rw [resolve_extended_state hop hbc hb] at hr; exact absurd rfl hr

/-- R28, R76: an executed step changes O only in the six instructions that write it, or as their operand a. -/
theorem Executes.o_change {s t : State} (h : Executes s t) (ho : t.o ≠ s.o) :
    writesA s.wordAtPc ∧ (aOf s.wordAtPc = 0x1D ∨ opOf s.wordAtPc ∈ [0x2, 0x3, 0x4, 0x5, 0x7, 0x8]) := by
  cases h with
  | @writes mk a b la lb s1 u hop hac hbc ha hb hw =>
    refine ⟨hw, by_contra fun hn => ho ?_⟩
    obtain ⟨hla, hO⟩ := not_or.1 hn
    have hout := aluOf_writesO (opOf s.wordAtPc) (u.readLoc la) (u.readLoc lb)
    rw [decide_eq_false hO] at hout
    rw [State.o_commit_ne _ (loc_ne_o hac ha hla) hout, resolve_basic_state hop hac hbc ha hb]
    rfl
  | tests hop hac hbc ha hb hw => rw [resolve_basic_state hop hac hbc ha hb] at ho; exact absurd rfl ho
  | jsr hop hx hbc hb => rw [resolve_extended_state hop hbc hb] at ho; exact absurd rfl ho

/-- R55, R76, R220: an executed step changes memory only in the Word that JSR pushes to, or in the Word that the operand a
of a writing instruction resolves to. -/
theorem Executes.mem_change {s t : State} (h : Executes s t) {n : Nat} (hn : t.mem.readByte n ≠ s.mem.readByte n) :
    (∃ b lb u, opOf s.wordAtPc = 0 ∧ aOf s.wordAtPc = 1 ∧ Operand.ofCode (bOf s.wordAtPc) = some b ∧
      resolve b s.advance = some (lb, u) ∧ (n = 2 * (u.sp - 1).toNat ∨ n = 2 * (u.sp - 1).toNat + 1)) ∨
    (∃ a k s1, writesA s.wordAtPc ∧ Operand.ofCode (aOf s.wordAtPc) = some a ∧
      resolve a s.advance = some (.mem k, s1) ∧ (n = 2 * k.toNat ∨ n = 2 * k.toNat + 1)) := by
  cases h with
  | @writes mk a b la lb s1 u hop hac hbc ha hb hw =>
    have hmem : s.mem = u.mem := by rw [resolve_basic_state hop hac hbc ha hb]; rfl
    rw [hmem] at hn
    obtain ⟨k, rfl, hk⟩ := State.loc_of_readByte_commit_ne u hn
    exact .inr ⟨_, k, _, hw, hac, ha, hk⟩
  | tests hop hac hbc ha hb hw => rw [resolve_basic_state hop hac hbc ha hb] at hn; exact absurd rfl hn
  | @jsr b lb u hop hx hbc hb =>
    refine .inl ⟨b, lb, u, hop, hx, hbc, hb, by_contra fun hk => hn ?_⟩
    rw [jsrHandler_mem, Memory.readByte_writeWord_ne _ (not_or.1 hk), resolve_extended_state hop hbc hb]
    rfl

/-- Settles O45: a skipped step changes none of the three, and an executed one only as the three lemmas above say. -/
theorem stepWritesOnlyItsDestination : Obligations.StepWritesOnlyItsDestination := by
  intro s t h
  have hst := stepTo_of_step h
  cases hs : s.skip with
  | true =>
    rw [hst.of_skip hs]
    exact ⟨fun _ hr => absurd rfl hr, fun ho => absurd rfl ho, fun _ hn => absurd rfl hn⟩
  | false =>
    have hex := hst.of_not_skip hs
    refine ⟨fun r hr => ⟨rfl, hex.reg_change hr⟩, fun ho => ⟨rfl, hex.o_change ho⟩, fun n hn => ⟨rfl, ?_⟩⟩
    obtain ⟨b, lb, u, hop, hx, hbc, hb, hk⟩ | ⟨a, k, s1, hw, hac, ha, hk⟩ := hex.mem_change hn
    · exact .inl ⟨hop, hx, b, lb, u, hbc, hb, hk⟩
    · have hcode := code_of_resolve_mem ha
      rw [(Operand.code_of_ofCode hac).2] at hcode
      exact .inr ⟨hw, hcode, a, k, s1, hac, ha, hk⟩

end Sys2Proof.Machine
end

section
/-! No step reads the cycle counter or the model's own freeIndex (R30, R252; log 4): each operation of a step commutes with
changing these two fields. -/

namespace Sys2Proof.Machine

/-- The state with n more cycles and freeIndex m. -/
def State.recount (s : State) (n m : Nat) : State := { s with cycles := s.cycles + n, freeIndex := m }

variable (s : State) (n m : Nat)

@[simp] theorem State.readLoc_recount (l : Loc) : (s.recount n m).readLoc l = s.readLoc l := by cases l <;> rfl

theorem State.writeLoc_recount (l : Loc) (v : Word) : (s.recount n m).writeLoc l v = (s.writeLoc l v).recount n m := by
  cases l <;> rfl

theorem State.advance_recount : (s.recount n m).advance = s.advance.recount n m := by
  simp [State.advance, State.setPc, State.addCycles, State.recount, Nat.add_right_comm]

theorem State.suppress_recount : (s.recount n m).suppress = s.suppress.recount n m := by
  simp [State.suppress, State.setSkip, State.addCycles, State.recount, Nat.add_right_comm]

theorem State.commit_recount (la : Loc) (out : AluOut) :
    (s.recount n m).commit la out = (s.commit la out).recount n m := by
  cases out with
  | result r => exact State.writeLoc_recount s n m la r
  | resultThenO r o => exact congrArg (·.setO o) (State.writeLoc_recount s n m la r)
  | oThenResult o r => exact State.writeLoc_recount (s.setO o) n m la r
  | skipRequest b => cases b <;> rfl

theorem basicHandler_recount (alu : Word → Word → AluOut) (la lb : Loc) :
    basicHandler alu la lb (s.recount n m) = (basicHandler alu la lb s).recount n m := by
  rw [basicHandler, State.commit_recount, State.readLoc_recount, State.readLoc_recount]; rfl

theorem jsrHandler_recount (lb : Loc) : jsrHandler lb (s.recount n m) = (jsrHandler lb s).recount n m :=
  congrArg ((s.pushWord s.pc).recount n m).setPc (State.readLoc_recount (s.pushWord s.pc) n m lb)

theorem skipOr_recount {handler : State → State} (h : handler (s.recount n m) = (handler s).recount n m) :
    skipOr handler (s.recount n m) = (skipOr handler s).recount n m := by
  cases hs : s.skip with
  | true => rw [skipOr_of_skip hs, skipOr_of_skip (s := s.recount n m) hs, State.suppress_recount]
  | false => rw [skipOr_of_not_skip hs, skipOr_of_not_skip (s := s.recount n m) hs, h]

variable {s n m}

theorem resolve_recount {c : Operand} {l : Loc} {t : State} (h : resolve c s = some (l, t)) :
    resolve c (s.recount n m) = some (l, t.recount n m) := by
  cases c with
  | idx r | memNext | next => cases h; exact congrArg (fun t => some (_, t)) (State.advance_recount s n m)
  | lit v =>
    have hv : v.toNat ≤ 30 := of_decide_eq_true (resolve_wf h)
    simp only [resolve, if_pos hv] at h ⊢
    cases h; rfl
  | reg r | ind r | pop | peek | push | sp | pc | o => cases h; rfl

theorem resolve_advance_recount {c : Operand} {l : Loc} {t : State} (h : resolve c s.advance = some (l, t)) :
    resolve c (s.recount n m).advance = some (l, t.recount n m) := by
  rw [State.advance_recount]
  exact resolve_recount h

/-- A step that goes on from s to t goes on from s with other counts to t with other counts. -/
theorem StepTo.recount {t : State} (h : StepTo s t) : StepTo (s.recount n m) (t.recount n m) := by
  cases h with
  | basic hop hac hbc ha hb =>
    rw [← skipOr_recount _ n m (basicHandler_recount _ n m _ _ _)]
    exact .basic hop hac hbc (resolve_advance_recount ha) (resolve_recount hb)
  | jsr hop hx hbc hb =>
    rw [← skipOr_recount _ n m (jsrHandler_recount _ n m _)]
    exact .jsr hop hx hbc (resolve_advance_recount hb)
  | skippedUnknown hop hx hbc hb hskip =>
    rw [← State.suppress_recount]
    exact .skippedUnknown hop hx hbc (resolve_advance_recount hb) hskip

/-- Settles O46: the next states of a step commute with the change of the two fields. -/
theorem stepReadsNeitherCyclesNorFreeIndex : Obligations.StepReadsNeitherCyclesNorFreeIndex := by
  intro s t n m h
  obtain ⟨hs, hst⟩ := step_eq_next_iff.1 h
  exact step_eq_next_iff.2 ⟨hs, hst.recount⟩

end Sys2Proof.Machine
end

section
/-! The laws of memory (20_memory.md): a step keeps it canonical (R50), a Word reads as last written (R51, R57), a
canonical memory is determined by what its cells read as (log 1), and an image stands where it was written (R65, R271). -/

namespace Sys2Proof.Machine

/-! ## The canonical form along a step -/

/-- Settles O58: the step answers from a running core, and `StepTo` keeps the status and the canonical form. -/
theorem stepKeepsMemoryCanonical : Obligations.StepKeepsMemoryCanonical := by
  intro s t hm h
  obtain ⟨hs, hst⟩ := step_eq_next_iff.1 h
  exact ⟨hst.mem_wf hm, hst.status_eq.trans hs⟩

/-! ## Words read after a Word is written -/

/-- The cells 2k and 2k + 1 of different addresses k are different, so a Word write reaches one Word only. -/
theorem Memory.readWord_writeWord (m : Memory) (k v j : Word) :
    (m.writeWord k v).readWord j = if j = k then v else m.readWord j := by
  by_cases hj : j = k
  · simp [Memory.readWord, Memory.readByte_writeWord, hj, highByte_append_lowByte]
  · have hne : j.toNat ≠ k.toNat := fun e => hj (BitVec.eq_of_toNat_eq e)
    rw [if_neg hj, Memory.readWord, Memory.readByte_writeWord_ne m (by omega), Memory.readByte_writeWord_ne m (by omega)]
    rfl

/-! ## A canonical memory is what its cells read as -/

theorem Memory.mem_of_readByte_ne {m : Memory} {k : Nat} (h : m.readByte k ≠ unlistedByte) : (k, m.readByte k) ∈ m := by
  induction m with
  | nil => exact absurd rfl h
  | cons c m ih =>
    by_cases hc : c.1 = k
    · subst hc; simp [Memory.readByte]
    · simp only [Memory.readByte, if_neg hc] at h ⊢
      exact List.mem_cons_of_mem c (ih h)

theorem Memory.readByte_of_mem {m : Memory} {c : Host.Cell} (hm : m.Pairwise fun c d => c.1 < d.1) (hc : c ∈ m) :
    m.readByte c.1 = c.2 := by
  induction m with
  | nil => cases hc
  | cons d m ih =>
    obtain ⟨hd, hm⟩ := List.pairwise_cons.1 hm
    obtain rfl | hc := List.mem_cons.1 hc
    · simp [Memory.readByte]
    · rw [Memory.readByte, if_neg (hd c hc).ne, ih hm hc]

/-- The entries of a canonical memory are the cells that do not read as an unlisted one. -/
theorem Memory.mem_iff_readByte {m : Memory} (hm : m.wf) (c : Host.Cell) :
    c ∈ m ↔ m.readByte c.1 = c.2 ∧ c.2 ≠ unlistedByte := by
  constructor
  · intro hc
    exact ⟨Memory.readByte_of_mem hm.1 hc, (hm.2 c hc).2⟩
  · rintro ⟨hr, hne⟩
    have hmem := Memory.mem_of_readByte_ne (hr ▸ hne)
    rwa [hr] at hmem

/-- Canonical memories whose cells read alike have the same entries in the same order, so they are one list. -/
theorem Memory.eq_of_readByte_eq {m n : Memory} (hm : m.wf) (hn : n.wf) (h : ∀ k, m.readByte k = n.readByte k) :
    m = n := by
  have hirrefl : Std.Irrefl fun c d : Host.Cell => c.1 < d.1 := ⟨fun c => lt_irrefl c.1⟩
  have hantisymm : Std.Antisymm fun c d : Host.Cell => c.1 < d.1 := ⟨fun _ _ hcd hdc => absurd hcd hdc.asymm⟩
  refine hm.1.eq_of_mem_iff hn.1 fun c => ?_
  rw [Memory.mem_iff_readByte hm, Memory.mem_iff_readByte hn, h]

/-- R57: a Word written a second time leaves a canonical memory as it is. -/
theorem Memory.writeWord_writeWord_same {m : Memory} (hm : m.wf) (k v : Word) :
    (m.writeWord k v).writeWord k v = m.writeWord k v := by
  have hk := Memory.writeWord_wf k v hm
  refine Memory.eq_of_readByte_eq (Memory.writeWord_wf k v hk) hk fun n => ?_
  simp only [Memory.readByte_writeWord]
  split_ifs <;> rfl

/-- Settles O17: reads by the cells of a Word, the repeated write by the uniqueness of the canonical form. -/
theorem memoryReadsLastWrite : Obligations.MemoryReadsLastWrite := by
  intro s k v
  exact ⟨Memory.readWord_writeWord s.mem k v,
    fun hm => congrArg (fun m => { s with mem := m }) (Memory.writeWord_writeWord_same hm k v)⟩

/-! ## The image that load writes -/

/-- R271: an image that ends inside the memory stands from address k on, and every other Word is as before. The image's
head is not overwritten by its tail, because no address of the image wraps. -/
theorem Memory.readWord_writeImage (img : List Word) (m : Memory) (k : Nat) (hk : k + img.length ≤ 65536) (j : Word) :
    (m.writeImage k img).readWord j =
      if h : k ≤ j.toNat ∧ j.toNat - k < img.length then img[j.toNat - k] else m.readWord j := by
  induction img generalizing m k with
  | nil => simp [Memory.writeImage]
  | cons v img ih =>
    rw [List.length_cons] at hk
    have hj : j = BitVec.ofNat 16 k ↔ j.toNat = k := by
      rw [← BitVec.toNat_inj, BitVec.toNat_ofNat, Nat.mod_eq_of_lt (by omega)]
    rw [Memory.writeImage, ih _ (k + 1) (by omega), Memory.readWord_writeWord]
    simp only [hj]
    obtain hlt | heq | hgt := lt_trichotomy j.toNat k
    · rw [dif_neg (by omega), dif_neg (by omega), if_neg (by omega)]
    · simp [heq]
    · obtain ⟨i, hi⟩ := Nat.exists_eq_add_of_lt hgt
      have h1 : j.toNat - k = i + 1 := by omega
      have h2 : j.toNat - (k + 1) = i := by omega
      simp [h1, h2, hgt.ne', hgt.le, Nat.succ_le_of_lt hgt]

/-- Settles O53: the image stands in an empty memory, whose other Words read as 0. -/
theorem loadedImageStandsAtZero : Obligations.LoadedImageStandsAtZero := by
  intro img himg
  obtain ⟨-, hzero, -⟩ := resetIsZeroEverywhere
  refine ⟨_, if_pos himg, rfl, fun k => ?_⟩
  have h := Memory.readWord_writeImage img State.reset.mem 0 (by omega) k
  rw [← hzero k]
  simpa [State.readMem] using h

end Sys2Proof.Machine
end

section
/-! The two formats of an instruction (R70, R71, R77), and what the encoder, the legality test and the length say of each. -/

namespace Sys2Proof

/-- R76, R77: an instruction is a basic one, of some basic opcode, or JSR. -/
theorem Instr.basic_or_jsr (i : Instr) :
    (∃ op mk a b, basicOf op = some mk ∧ i = mk a b) ∨ ∃ b, i = .jsr b := by
  cases i with
  | set a b => exact .inl ⟨0x1, .set, a, b, rfl, rfl⟩
  | add a b => exact .inl ⟨0x2, .add, a, b, rfl, rfl⟩
  | sub a b => exact .inl ⟨0x3, .sub, a, b, rfl, rfl⟩
  | mul a b => exact .inl ⟨0x4, .mul, a, b, rfl, rfl⟩
  | div a b => exact .inl ⟨0x5, .div, a, b, rfl, rfl⟩
  | mod a b => exact .inl ⟨0x6, .mod, a, b, rfl, rfl⟩
  | shl a b => exact .inl ⟨0x7, .shl, a, b, rfl, rfl⟩
  | shr a b => exact .inl ⟨0x8, .shr, a, b, rfl, rfl⟩
  | and a b => exact .inl ⟨0x9, .and, a, b, rfl, rfl⟩
  | bor a b => exact .inl ⟨0xA, .bor, a, b, rfl, rfl⟩
  | xor a b => exact .inl ⟨0xB, .xor, a, b, rfl, rfl⟩
  | ife a b => exact .inl ⟨0xC, .ife, a, b, rfl, rfl⟩
  | ifn a b => exact .inl ⟨0xD, .ifn, a, b, rfl, rfl⟩
  | ifg a b => exact .inl ⟨0xE, .ifg, a, b, rfl, rfl⟩
  | ifb a b => exact .inl ⟨0xF, .ifb, a, b, rfl, rfl⟩
  | jsr b => exact .inr ⟨b, rfl⟩

section
variable {op : BitVec 4} {mk : Operand → Operand → Instr} (h : basicOf op = some mk) (a b : Operand)
include h

theorem encode_of_basicOf : encode (mk a b) = packWord op a.code b.code := by
  obtain ⟨⟨n, hn⟩⟩ := op
  interval_cases n <;> cases h <;> rfl

theorem wf_of_basicOf : (mk a b).WellFormed ↔ a.WellFormed ∧ b.WellFormed := by
  rw [← Bool.and_eq_true]
  obtain ⟨⟨n, hn⟩⟩ := op
  interval_cases n <;> cases h <;> rfl

theorem length_of_basicOf : (mk a b).length = 1 + a.nextWords + b.nextWords := by
  obtain ⟨⟨n, hn⟩⟩ := op
  interval_cases n <;> cases h <;> rfl

end

/-- R73: an operand takes at most one next word. -/
theorem Operand.nextWords_le_one (c : Operand) : c.nextWords ≤ 1 := by
  cases c with
  | idx r | memNext | next => exact le_rfl
  | reg r | ind r | pop | peek | push | sp | pc | o | lit v => exact Nat.zero_le 1

end Sys2Proof
end

section
/-! The decoder's answers to the words it rejects for an operand code, and which words are instructions (R79, R247). The
unknown extended opcode is `decode_unknown` above. -/

namespace Sys2Proof.Machine

/-- R247: an illegal a of a basic word is reported whatever b is. -/
theorem decode_invalid_a {w : Word} (hop : opOf w ≠ 0) (ha : aOf w = 0x3F) :
    decode w = .error (.invalidOperand .a 0x3F) := by
  obtain ⟨mk, hmk⟩ := Option.ne_none_iff_exists'.1 (mt basicOf_eq_none.1 hop)
  simpa [decode, decodeBasic, hmk, Operand.ofCode_eq_none.2 ha] using ha

/-- R247: an illegal b is reported unless a basic word has an illegal a. -/
theorem decode_invalid_b {w : Word} (hb : bOf w = 0x3F) (ha : opOf w = 0 ∨ aOf w ≠ 0x3F) :
    decode w = .error (.invalidOperand .b 0x3F) := by
  have hbc := Operand.ofCode_eq_none.2 hb
  cases hmk : basicOf (opOf w) with
  | none => simpa [decode, decodeExtended, hmk, hbc] using hb
  | some mk =>
    have ha := ha.resolve_left (opcode_ne_zero hmk)
    obtain ⟨a, hac⟩ := Option.ne_none_iff_exists'.1 (mt Operand.ofCode_eq_none.1 ha)
    simpa [decode, decodeBasic, hmk, hac, hbc] using hb

/-- R79: the words that are instructions. -/
theorem decode_isOk {w : Word} (hb : bOf w ≠ 0x3F)
    (h : (opOf w = 0 ∧ aOf w = 0x01) ∨ (opOf w ≠ 0 ∧ aOf w ≠ 0x3F)) : ∃ i, decode w = .ok i := by
  obtain ⟨b, hb⟩ := Option.ne_none_iff_exists'.1 (mt Operand.ofCode_eq_none.1 hb)
  obtain ⟨hop, hx⟩ | ⟨hop, ha⟩ := h
  · exact ⟨_, decode_jsr hop hx hb⟩
  · obtain ⟨mk, hmk⟩ := Option.ne_none_iff_exists'.1 (mt basicOf_eq_none.1 hop)
    obtain ⟨a, ha⟩ := Option.ne_none_iff_exists'.1 (mt Operand.ofCode_eq_none.1 ha)
    exact ⟨_, decode_basic hmk ha hb⟩

end Sys2Proof.Machine
end

section
/-! The encoding: decode and encode undo each other, the decoder divides the words, and a word fixes its length (R73, R79,
R81, R84). -/

namespace Sys2Proof.Machine
open Sys2Proof.Claims

/-- Settles O3: the fields of the encoding are the opcode and the operand codes, and each gives back what it came from. -/
theorem decodeOfEncodeIsTheInstruction : Obligations.DecodeOfEncodeIsTheInstruction := by
  intro i hi
  obtain ⟨op, mk, a, b, hop, rfl⟩ | ⟨b, rfl⟩ := Instr.basic_or_jsr i
  · obtain ⟨ha, hb⟩ := (wf_of_basicOf hop a b).1 hi
    rw [encode_of_basicOf hop]
    exact decode_basic (by simpa using hop) (by simpa using Operand.ofCode_code ha) (by simpa using Operand.ofCode_code hb)
  · have hb : b.WellFormed := hi
    exact decode_jsr (opOf_packWord _ _ _) (aOf_packWord _ _ _) (by simpa [encode] using Operand.ofCode_code hb)

/-- Settles O4: an operand form read from a code is legal and has that code, and a word is its three fields. -/
theorem encodeOfDecodeIsTheWord : Obligations.EncodeOfDecodeIsTheWord := by
  intro w i h
  obtain ⟨mk, a, b, hop, hac, hbc, rfl⟩ | ⟨hop, hx, b, hbc, rfl⟩ := decode_ok h
  · obtain ⟨ha, hacode⟩ := Operand.code_of_ofCode hac
    obtain ⟨hb, hbcode⟩ := Operand.code_of_ofCode hbc
    refine ⟨(wf_of_basicOf hop a b).2 ⟨ha, hb⟩, ?_⟩
    rw [encode_of_basicOf hop, hacode, hbcode, packWord_fields]
  · obtain ⟨hb, hbcode⟩ := Operand.code_of_ofCode hbc
    refine ⟨hb, ?_⟩
    calc encode (.jsr b) = packWord (opOf w) (aOf w) (bOf w) := by rw [hop, hx, ← hbcode]; rfl
      _ = w := packWord_fields w

/-- Settles O5: the four conditions leave out no word, and under each of them the decoder gives its one answer, which
rules out the other three. -/
theorem decodeSplitsEveryWord : Obligations.DecodeSplitsEveryWord := by
  intro w
  by_cases hA : opOf w ≠ 0 ∧ aOf w = 0x3F
  · have h := decode_invalid_a hA.1 hA.2
    exact ⟨iff_of_true h hA, iff_of_false (by simp [h]) (by tauto), iff_of_false (by simp [h]) (by tauto),
      iff_of_false (by simp [h]) (by tauto)⟩
  have ha : opOf w = 0 ∨ aOf w ≠ 0x3F := by tauto
  by_cases hb : bOf w = 0x3F
  · have h := decode_invalid_b hb ha
    exact ⟨iff_of_false (by simp [h]) hA, iff_of_true h ⟨hb, ha⟩, iff_of_false (by simp [h]) (by tauto),
      iff_of_false (by simp [h]) (by tauto)⟩
  by_cases hX : opOf w = 0 ∧ aOf w ≠ 0x01
  · obtain ⟨hop, hx⟩ := hX
    obtain ⟨b, hbc⟩ := Option.ne_none_iff_exists'.1 (mt Operand.ofCode_eq_none.1 hb)
    have h := decode_unknown hop hx hbc
    exact ⟨iff_of_false (by simp [h]) hA, iff_of_false (by simp [h]) (by tauto), iff_of_true ⟨b, h⟩ ⟨hop, hx, hb⟩,
      iff_of_false (by simp [h]) (by tauto)⟩
  · have hI : (opOf w = 0 ∧ aOf w = 0x01) ∨ (opOf w ≠ 0 ∧ aOf w ≠ 0x3F) := by tauto
    obtain ⟨i, h⟩ := decode_isOk hb hI
    exact ⟨iff_of_false (by simp [h]) hA, iff_of_false (by simp [h]) (by tauto), iff_of_false (by simp [h]) (by tauto),
      iff_of_true ⟨i, h⟩ ⟨hb, hI⟩⟩

/-- Settles O6: each operand code of the word says how many next words its operand form takes. -/
theorem lengthIsFixedByTheWord : Obligations.LengthIsFixedByTheWord := by
  intro i _
  obtain ⟨op, mk, a, b, hop, rfl⟩ | ⟨b, rfl⟩ := Instr.basic_or_jsr i
  · have ha := Operand.nextWords_le_one a
    have hb := Operand.nextWords_le_one b
    rw [encode_of_basicOf hop, length_of_basicOf hop]
    refine ⟨?_, by omega, by omega⟩
    simp only [wordLength, opOf_packWord, aOf_packWord, bOf_packWord, nwc_code, if_neg (opcode_ne_zero hop)]
  · have hb := Operand.nextWords_le_one b
    have hlen : (Instr.jsr b).length = 1 + b.nextWords := rfl
    refine ⟨?_, by omega, by omega⟩
    simp [hlen, wordLength, encode, nwc_code]

/-- Settles O2: the decoder run on each of the nine words. -/
theorem sampleWordsDecode : Obligations.SampleWordsDecode := ⟨rfl, rfl, rfl, rfl, rfl, rfl, rfl, rfl, rfl⟩

/-- Settles O15: resolving moves PC past the next word that the operand takes, if any, and leaves memory alone. -/
theorem nextWordOfBFollowsThatOfA : Obligations.NextWordOfBFollowsThatOfA := by
  intro a s s1 la h
  have hmem : s1.readMem s1.pc = s.readMem (s.pc + BitVec.ofNat 16 a.nextWords) := by rw [resolve_state h]; rfl
  rw [hmem, nwc_code]
  obtain h0 | h1 := Nat.le_one_iff_eq_zero_or_eq_one.1 (Operand.nextWords_le_one a)
  · simp [h0]
  · simp [h1]

end Sys2Proof.Machine
end

section
/-! The frame of the conditional instructions (R76, R200 to R204). -/

namespace Sys2Proof.Machine
open Sys2Proof.Claims

/-- The instructions of the column 'may set skip' have alu functions that only request a skip. -/
theorem basicOf_of_mem_conditional {mk : Operand → Operand → Instr} (h : mk ∈ conditional) :
    ∃ op : BitVec 4, basicOf op = some mk ∧ ∀ va vb, (aluOf op va vb).requestsSkip = true := by
  obtain ⟨i, hi, rfl⟩ := List.mem_iff_getElem.1 h
  refine ⟨BitVec.ofNat 4 (i + 0xC), ?_⟩
  have hi : i < 4 := hi
  interval_cases i <;> exact ⟨rfl, fun _ _ => rfl⟩

/-- An executed skip request changes the skip flag alone, and a skipped instruction clears it and takes two cycles. -/
theorem skipOr_basicHandler_of_requestsSkip {alu : Word → Word → AluOut} {la lb : Loc} {u : State}
    (h : (alu (u.readLoc la) (u.readLoc lb)).requestsSkip = true) :
    ∃ f, skipOr (basicHandler alu la lb) u = { u with skip := f, cycles := u.cycles + if u.skip then 2 else 0 } := by
  cases hskip : u.skip with
  | true => exact ⟨false, skipOr_of_skip hskip⟩
  | false => exact ⟨_, (skipOr_of_not_skip hskip).trans (State.commit_of_requestsSkip u h)⟩

/-- A basic instruction that goes on has resolved a. -/
theorem resolve_of_exec_basic_next {op : BitVec 4} {mk : Operand → Operand → Instr} {a b : Operand} {s t : State}
    (hop : basicOf op = some mk) (h : exec (mk a b) s = .next t) : ∃ la s1, resolve a s = some (la, s1) := by
  rw [exec_of_basicOf hop] at h
  obtain ⟨la, s1, -, -, ha, -⟩ | ⟨-, e⟩ | ⟨ha, -⟩ := runBasic_cases op (aluOf op) a b s
  · exact ⟨la, s1, ha⟩
  · cases e.symm.trans h
  · exact resolve_of_wf s ha

/-- Settles O38: the resolutions leave a state in which only the skip flag, and the two cycles of a skip, are new. -/
theorem conditionalInstructionsFrame : Obligations.ConditionalInstructionsFrame := by
  intro mk hmk a b s t h
  obtain ⟨op, hop, hreq⟩ := basicOf_of_mem_conditional hmk
  obtain ⟨la, s1, ha⟩ := resolve_of_exec_basic_next hop h
  obtain ⟨lb, u, hb, rfl⟩ := exec_basic_next hop ha h
  obtain ⟨f, hf⟩ := skipOr_basicHandler_of_requestsSkip (hreq (u.readLoc la) (u.readLoc lb))
  rw [hf, resolve_both_state ha hb]
  exact ⟨fun _ => rfl, fun _ => rfl, rfl, rfl, rfl, rfl, rfl, rfl⟩

end Sys2Proof.Machine
end

section
/-! The laws of locations: what each reads as after a write (R101, R102), which operands the resolver answers (R103, R117),
and what a basic instruction does with the locations of its operands when it is executed (R140, R147). -/

namespace Sys2Proof

/-- R78: the one form with code 0x3F is the literal 31, and it is the one that is not legal. -/
theorem Operand.code_ne_iff {c : Operand} : c.code ≠ 0x3F ↔ c.WellFormed := by
  refine ⟨fun h => ?_, Operand.code_ne⟩
  cases c with
  | lit v => revert h; revert v; decide
  | reg r | ind r | idx r | pop | peek | push | sp | pc | o | memNext | next => rfl

end Sys2Proof

namespace Sys2Proof.Machine

/-! ## Reading after writing -/

variable (s : State) {l m : Loc}

theorem State.readLoc_writeLoc_same (h : ∀ w, l ≠ .lit w) (v : Word) : (s.writeLoc l v).readLoc l = v := by
  cases l with
  | reg r => exact State.reg_setReg_same s r v
  | sp | pc | o => rfl
  | mem k => exact (Memory.readWord_writeWord s.mem k v k).trans (if_pos rfl)
  | lit w => exact absurd rfl (h w)

theorem State.readMem_writeLoc_ne {k : Word} (h : l ≠ .mem k) (v : Word) : (s.writeLoc l v).readMem k = s.readMem k := by
  cases l with
  | mem j => exact (Memory.readWord_writeWord s.mem j v k).trans (if_neg fun e => h (congrArg Loc.mem e.symm))
  | reg r | sp | pc | o | lit w => rfl

theorem State.readLoc_writeLoc_ne (h : l ≠ m) (v : Word) : (s.writeLoc l v).readLoc m = s.readLoc m := by
  cases m with
  | reg r => exact State.reg_writeLoc_ne s h v
  | sp => exact State.sp_writeLoc_ne s h v
  | pc => exact State.pc_writeLoc_ne s h v
  | o => exact State.o_writeLoc_ne s h v
  | mem k => exact State.readMem_writeLoc_ne s h v
  | lit w => rfl

/-- A Word written back to the cell it was read from leaves every Word as it was. -/
theorem State.readMem_writeMem_readMem {i k : Word} (h : i = k) (j : Word) :
    (s.writeMem k (s.readMem i)).readMem j = s.readMem j := by
  subst h
  refine (Memory.readWord_writeWord s.mem i _ j).trans ?_
  split
  next e => rw [e]
  next => rfl

/-! ## Execution -/

/-- R8: the low Word of a sum of Words is their sum modulo 65536. -/
theorem trunc16_add (x y : Word) : trunc16 ((x.toNat : Int) + y.toNat) = x + y := by
  apply BitVec.eq_of_toNat_eq
  rw [← Int.natCast_add, trunc16_toNat, BitVec.toNat_add]

/-- A basic instruction with no skip pending commits what its alu function gives for the operand values, both read in the
state after both resolutions (R147). -/
theorem exec_basic_of_not_skip {op : BitVec 4} {mk : Operand → Operand → Instr} {a b : Operand} {s s1 u : State} {la lb : Loc}
    (hop : basicOf op = some mk) (ha : resolve a s = some (la, s1)) (hb : resolve b s1 = some (lb, u))
    (hs : s.skip = false) :
    exec (mk a b) s = .next (u.commit la (aluOf op (u.readLoc la) (u.readLoc lb))) := by
  have hu : u.skip = false := by rw [resolve_both_state ha hb]; exact hs
  rw [exec_of_basicOf hop]
  simp [runBasic, ha, hb, skipOr_of_not_skip hu, basicHandler]

end Sys2Proof.Machine
end

section
/-! The operand forms (R104 to R115), the resolver's contract (R103), reading and writing of locations (R102), and the
illegal operand code (R117, R119). -/

namespace Sys2Proof.Machine
open Sys2Proof.Claims

/-- Settles O14: the resolver answers exactly the legal operands, and `resolve_state` is all that it can do. -/
theorem resolverChangesOnlyPcSpCycles : Obligations.ResolverChangesOnlyPcSpCycles := by
  intro c s
  rw [resolve_isSome, nwc_code, spDelta_code]
  refine ⟨Operand.code_ne_iff.symm, fun l t h => ?_⟩
  rw [resolve_state h]
  exact ⟨rfl, rfl, rfl, rfl⟩

/-- Settles O16: a write through a location reaches what that location reads, and no other location. -/
theorem locationReadsBackWhatWasWritten : Obligations.LocationReadsBackWhatWasWritten := by
  intro s l m v
  exact ⟨fun h => State.readLoc_writeLoc_same s h v, fun w h => h ▸ rfl,
    fun h => State.readLoc_writeLoc_ne s h.symm v, State.writeLoc_skip s l v, State.writeLoc_cycles s l v,
    State.writeLoc_status s l v, State.writeLoc_freeIndex s l v⟩

/-- Settles O36: a basic instruction that is not well-formed has an illegal a or an illegal b, and both are raised before
the skip flag is looked at. -/
theorem illFormedInstructionRaisesInvalidOperand : Obligations.IllFormedInstructionRaisesInvalidOperand := by
  intro i s hi
  obtain ⟨op, mk, a, b, hop, rfl⟩ | ⟨b, rfl⟩ := Instr.basic_or_jsr i
  · rw [exec_of_basicOf hop, encode_of_basicOf hop]
    obtain ⟨la, s1, lb, u, ha, hb, -⟩ | ⟨-, e⟩ | ⟨-, -, e⟩ := runBasic_cases op (aluOf op) a b s
    · exact absurd ((wf_of_basicOf hop a b).2 ⟨resolve_wf ha, resolve_wf hb⟩) hi
    · exact ⟨_, e, rfl, rfl⟩
    · exact ⟨_, e, rfl, rfl⟩
  · rw [exec_jsr]
    obtain ⟨lb, u, hb, -⟩ | ⟨-, e⟩ := runExtended_cases 0x01 jsrHandler b s
    · exact absurd (resolve_wf hb) hi
    · exact ⟨_, e, rfl, rfl⟩

/-- Settles O7: each of the eight registers has its codes, and resolving reads the register. -/
theorem registerOperandForms : Obligations.RegisterOperandForms := by
  intro r s
  refine ⟨⟨?_, rfl⟩, ⟨?_, rfl⟩⟩
  · cases r <;> rfl
  · cases r <;> rfl

/-- Settles O8: the address is a sum of Words, which wraps. -/
theorem indexedOperandForm : Obligations.IndexedOperandForm := by
  intro r s
  refine ⟨?_, s.wordAtPc + s.reg r, BitVec.toNat_add _ _, rfl⟩
  cases r <;> rfl

/-- Settles O9: SP + 1 and SP - 1 are Words, which wrap. -/
theorem stackOperandForms : Obligations.StackOperandForms := by
  intro s
  refine ⟨⟨rfl, s.sp + 1, BitVec.toNat_add _ _, rfl⟩, ⟨rfl, rfl⟩, ⟨rfl, s.sp - 1, ?_, rfl⟩⟩
  rw [BitVec.toNat_sub, Nat.add_comm]
  rfl

/-- Settles O10: the three forms are the registers, by the resolver's and the locations' own equations. -/
theorem specialRegisterForms : Obligations.SpecialRegisterForms :=
  ⟨fun _ => ⟨rfl, rfl, rfl⟩, ⟨rfl, rfl, rfl⟩, fun _ => ⟨rfl, rfl, rfl⟩, fun _ _ => ⟨rfl, rfl, rfl⟩⟩

/-- Settles O11: the resolver's own equation for code 0x1E. -/
theorem nextWordAddressForm : Obligations.NextWordAddressForm := ⟨rfl, fun _ => rfl⟩

/-- Settles O12: the resolver's own equation for code 0x1F, with LIT1F_WRITABLE true. -/
theorem nextWordItselfForm : Obligations.NextWordItselfForm := ⟨rfl, fun _ => rfl⟩

/-- Settles O13: the literal fits its code and its Word, so neither loses a bit. -/
theorem shortLiteralForm : Obligations.ShortLiteralForm := by
  intro v s hv
  have hlt := v.isLt
  refine ⟨?_, v.setWidth 16, ?_, if_pos hv, rfl, fun x => rfl⟩
  · rw [Operand.code, BitVec.toNat_ofNat, Nat.mod_eq_of_lt (by omega)]
  · rw [BitVec.toNat_setWidth, Nat.mod_eq_of_lt (by omega)]

/-- Settles O29: PUSH with POP, in either order, writes a Word back to the cell it was read from and brings SP back;
the other two are read in the state that the resolution of b left. -/
theorem stackOperandsAreLiveHandles : Obligations.StackOperandsAreLiveHandles := by
  intro s hs
  refine ⟨?setPushPop, ?setPopPush, ?setSpPop, ?addSpPush⟩
  case setPushPop =>
    exact ⟨_, exec_basic_of_not_skip (op := 0x1) rfl rfl rfl hs, BitVec.sub_add_cancel s.sp 1,
      State.readMem_writeMem_readMem _ rfl⟩
  case setPopPush =>
    exact ⟨_, exec_basic_of_not_skip (op := 0x1) rfl rfl rfl hs, BitVec.add_sub_cancel s.sp 1,
      State.readMem_writeMem_readMem _ (BitVec.add_sub_cancel s.sp 1)⟩
  case setSpPop => exact ⟨_, exec_basic_of_not_skip (op := 0x1) rfl rfl rfl hs, rfl⟩
  case addSpPush => exact ⟨_, exec_basic_of_not_skip (op := 0x2) rfl rfl rfl hs, trunc16_add _ _⟩

end Sys2Proof.Machine
end

section
/-! Dispatch: what a step of a running core runs (R140, R141), what a skipped instruction does (R119, R145, R205), the cycles
and PC of a step that goes on (R149, R150), and the halt after a fault (R152, R245). -/

namespace Sys2Proof.Machine
open Sys2Proof.Claims

/-! ## Skipped instructions -/

theorem spMove_of_basicOf {op : BitVec 4} {mk : Operand → Operand → Instr} (h : basicOf op = some mk) (a b : Operand) :
    spMove (mk a b) = spChange a + spChange b := by
  obtain ⟨⟨n, hn⟩⟩ := op
  interval_cases n <;> cases h <;> rfl

/-- R145: a basic instruction with a skip pending leaves the state after both resolutions, suppressed. -/
theorem exec_basic_of_skip {op : BitVec 4} {mk : Operand → Operand → Instr} {a b : Operand} {s s1 u : State} {la lb : Loc}
    (hop : basicOf op = some mk) (ha : resolve a s = some (la, s1)) (hb : resolve b s1 = some (lb, u))
    (hs : s.skip = true) : exec (mk a b) s = .next u.suppress := by
  have hu : u.skip = true := by rw [resolve_both_state ha hb]; exact hs
  rw [exec_of_basicOf hop]
  simp [runBasic, ha, hb, skipOr_of_skip hu]

/-- R145: a JSR with a skip pending leaves the state after the resolution of b, suppressed. -/
theorem exec_jsr_of_skip {b : Operand} {s u : State} {lb : Loc} (hb : resolve b s = some (lb, u)) (hs : s.skip = true) :
    exec (.jsr b) s = .next u.suppress := by
  have hu : u.skip = true := by rw [resolve_state hb]; exact hs
  rw [exec_jsr]
  simp [runExtended, hb, skipOr_of_skip hu]

/-- Settles O40: the legal operands of either format resolve, and the state they leave is suppressed. -/
theorem skippedInstructionOnlyResolves : Obligations.SkippedInstructionOnlyResolves := by
  intro i s hi hs
  obtain ⟨op, mk, a, b, hop, rfl⟩ | ⟨b, rfl⟩ := Instr.basic_or_jsr i
  · obtain ⟨hawf, hbwf⟩ := (wf_of_basicOf hop a b).1 hi
    obtain ⟨la, s1, ha⟩ := resolve_of_wf s hawf
    obtain ⟨lb, u, hb⟩ := resolve_of_wf s1 hbwf
    have hlen : (mk a b).length - 1 = a.nextWords + b.nextWords := by rw [length_of_basicOf hop]; omega
    rw [exec_basic_of_skip hop ha hb hs, resolve_both_state ha hb, hlen, spMove_of_basicOf hop, ← BitVec.add_assoc,
      ← Nat.add_assoc]
    rfl
  · obtain ⟨lb, u, hb⟩ := resolve_of_wf s hi
    have hlen : (Instr.jsr b).length - 1 = b.nextWords := Nat.add_sub_cancel_left 1 b.nextWords
    rw [exec_jsr_of_skip hb hs, resolve_state hb, hlen]
    rfl

/-! ## Cycles -/

/-- R149: executing adds no cycle to those of the fetch and the resolutions. -/
theorem Executes.cycles_eq {s t : State} (h : Executes s t) : t.cycles = s.cycles + wordLength s.wordAtPc := by
  cases h with
  | writes hop hac hbc ha hb hw => rw [State.commit_cycles, resolve_basic_state hop hac hbc ha hb]; rfl
  | tests hop hac hbc ha hb hw => rw [resolve_basic_state hop hac hbc ha hb]; rfl
  | jsr hop hx hbc hb => rw [jsrHandler_cycles, resolve_extended_state hop hbc hb]; rfl

/-- Settles O41: a skipped step is the fetch and the resolutions, suppressed, and an executed one adds nothing to them. -/
theorem cyclesOfAStep : Obligations.CyclesOfAStep := by
  intro s t h
  have hst := stepTo_of_step h
  cases hs : s.skip with
  | true => rw [hst.of_skip hs]; rfl
  | false => exact (hst.of_not_skip hs).cycles_eq

/-! ## PC -/

theorem eq_pc_of_resolve {c : Operand} {s t : State} (h : resolve c s = some (.pc, t)) : c = .pc := by
  cases c <;> simp_all [resolve, Config.lit1fWritable]

theorem loc_ne_pc {n : BitVec 6} {a : Operand} {s s1 : State} {la : Loc} (hac : Operand.ofCode n = some a)
    (ha : resolve a s = some (la, s1)) (hn : n ≠ 0x1C) : la ≠ .pc := by
  rintro rfl
  obtain rfl := eq_pc_of_resolve ha
  exact hn (Operand.code_of_ofCode hac).2.symm

/-- Settles O42: a skipped step moves PC as the fetch and the resolutions do, and so does an executed basic one whose
destination is not PC. -/
theorem pcAfterAStep : Obligations.PcAfterAStep := by
  intro s t h hcase
  have hst := stepTo_of_step h
  cases hs : s.skip with
  | true => rw [hst.of_skip hs]; rfl
  | false =>
    obtain ⟨hbasic, hdest⟩ := hcase.resolve_left (by simp [hs])
    cases hst.of_not_skip hs with
    | writes hop hac hbc ha hb hw =>
      rw [State.pc_commit_ne _ (loc_ne_pc hac ha (hdest hw)), resolve_basic_state hop hac hbc ha hb]
      rfl
    | tests hop hac hbc ha hb hw => rw [resolve_basic_state hop hac hbc ha hb]; rfl
    | jsr hop => exact absurd hop hbasic

/-! ## The halt -/

/-- R245: a call whose step faults halts the core with the fault's record. -/
theorem call_of_fault {s : State} {f : Fault} (hs : s.status = .running) (h : step s = .fault f) :
    call s = s.halt f.record := by
  simp [call, hs, h]

/-- R152: a step of a halted core is its record. -/
theorem step_of_halted {s : State} {r : FaultRecord} (hs : s.status = .halted r) : step s = .fault (.halted r) := by
  simp [step, hs]

/-- Settles O51: the halted core is a fixed point of `call`, so every further call leaves it. -/
theorem faultHaltsForGood : Obligations.FaultHaltsForGood := by
  intro s f hs h n
  have hhalt : (call s).status = .halted f.record := by rw [call_of_fault hs h]; rfl
  have hfix : call^[n] (call s) = call s := Function.iterate_fixed (call_of_halted hhalt) n
  rw [hfix]
  exact ⟨hhalt, rfl, step_of_halted hhalt⟩

/-! ## Fetch and dispatch -/

/-- R140: a running core runs the instruction that the word at PC decodes to, after the fetch. -/
theorem step_of_decode_ok {s : State} {i : Instr} (hs : s.status = .running) (hd : decode s.wordAtPc = .ok i) :
    step s = exec i s.advance := by
  simp [step, hs, hd]

/-- R79, R140: a running core that fetches a word which is no instruction runs what the rejection asks for. -/
theorem step_of_decode_error {s : State} {r : Reject} (hs : s.status = .running) (hd : decode s.wordAtPc = .error r) :
    step s = runRejected s.wordAtPc r s.advance := by
  simp [step, hs, hd]

/-- Settles O1: `wordAtPc` and `advance` are the fetch that the statement writes out, and the decoder's answer chooses
what runs after it. -/
theorem stepFetchesThenRunsDecodedInstruction : Obligations.StepFetchesThenRunsDecodedInstruction := by
  intro s hs
  cases hd : decode (s.readMem s.pc) with
  | ok i => exact step_of_decode_ok hs hd
  | error r => exact step_of_decode_error hs hd

end Sys2Proof.Machine
end

section
/-! Arithmetic and logic (R160 to R171): the results of the alu functions as exact numbers (R8), and what the eleven writing
instructions leave. -/

namespace Sys2Proof.Machine
open Sys2Proof.Claims

/-! ## The Words an alu function gives -/

variable (x y : Word)

/-- R161: the carry is the bit above a sum of Words. -/
theorem carryOf_toNat : (carryOf x y).toNat = (x.toNat + y.toNat) / 65536 := by
  have hx := x.isLt
  have hy := y.isLt
  rw [carryOf, ← Int.natCast_add, hi16_toNat, Nat.mod_eq_of_lt (by omega)]

theorem trunc16_mul_toNat : (trunc16 ((x.toNat : Int) * y.toNat)).toNat = x.toNat * y.toNat % 65536 := by
  rw [← Int.natCast_mul, trunc16_toNat]

/-- R163: a product of Words fits two Words, so its high Word loses no bit. -/
theorem highProductOf_toNat : (highProductOf x y).toNat = x.toNat * y.toNat / 65536 := by
  have hxy : x.toNat * y.toNat < 65536 * 65536 := Nat.mul_lt_mul'' x.isLt y.isLt
  rw [highProductOf, ← Int.natCast_mul, hi16_toNat, Nat.mod_eq_of_lt (Nat.div_lt_of_lt_mul hxy)]

/-- R164: the fraction. For a zero divisor both sides are 0. -/
theorem fractionOf_toNat : (fractionOf x y).toNat = x.toNat * 65536 / y.toNat % 65536 := by
  unfold fractionOf
  split
  next hy => simp [hy]
  next => rw [trunc16_toNat, Nat.shiftLeft_eq]

/-- R166: the bits shifted out to the left, for every amount. -/
theorem shiftedOutLeft_toNat : (shiftedOutLeft x y).toNat = x.toNat * 2 ^ y.toNat / 65536 % 65536 := by
  rw [shiftedOutLeft, hi16_toNat, Nat.shiftLeft_eq]

theorem trunc16_shiftLeft_toNat : (trunc16 ((x.toNat <<< y.toNat : Nat) : Int)).toNat = x.toNat * 2 ^ y.toNat % 65536 := by
  rw [trunc16_toNat, Nat.shiftLeft_eq]

/-- R167: the bits shifted out to the right, for every amount. -/
theorem shiftedOutRight_toNat : (shiftedOutRight x y).toNat = x.toNat * 65536 / 2 ^ y.toNat % 65536 := by
  rw [shiftedOutRight, trunc16_toNat, Nat.shiftRight_eq_div_pow, Nat.shiftLeft_eq]

/-- R8: a number no greater than that of a Word is not cut. -/
theorem trunc16_toNat_of_le {n : Nat} (h : n ≤ x.toNat) : (trunc16 (n : Int)).toNat = n := by
  rw [trunc16_toNat, Nat.mod_eq_of_lt (h.trans_lt x.isLt)]

/-- R167: a logical shift to the right loses nothing above 16 bits. -/
theorem trunc16_shiftRight_toNat : (trunc16 ((x.toNat >>> y.toNat : Nat) : Int)).toNat = x.toNat / 2 ^ y.toNat := by
  rw [Nat.shiftRight_eq_div_pow, trunc16_toNat_of_le x (Nat.div_le_self _ _)]

/-! ## The result statements -/

/-- A basic instruction has every effect that the commit of its alu result has, whatever the operand values, the
destination and the state after the resolutions are. -/
theorem runs_of_commit {op : BitVec 4} {mk : Operand → Operand → Instr} {effect : Word → Word → Loc → State → State → Prop}
    (hop : basicOf op = some mk)
    (h : ∀ (va vb : Word) (la : Loc) (u : State), effect va vb la u (u.commit la (aluOf op va vb))) : Runs mk effect := by
  intro a b s hawf hbwf hs
  obtain ⟨la, s1, ha⟩ := resolve_of_wf s hawf
  obtain ⟨lb, u, hb⟩ := resolve_of_wf s1 hbwf
  exact ⟨la, s1, lb, u, _, ha, hb, exec_basic_of_not_skip hop ha hb hs, h _ _ la u⟩

/-- Settles O19: the result of `aluSet` is the value of b. -/
theorem setCopiesOperand : Obligations.SetCopiesOperand :=
  runs_of_commit (op := 0x1) rfl fun _ _ _ _ => rfl

/-- Settles O20: the carry is the part of the sum above 16 bits, which is at most 1. -/
theorem addWritesSumAndCarry : Obligations.AddWritesSumAndCarry := by
  refine runs_of_commit (op := 0x2) rfl fun va vb la u => ⟨_, _, trunc16_toNat (va.toNat + vb.toNat), ?_, rfl⟩
  have ha := va.isLt
  have hb := vb.isLt
  refine (carryOf_toNat va vb).trans ?_
  split <;> omega

/-- Settles O21: the low and the high Word of the difference. -/
theorem subWritesDifferenceAndBorrow : Obligations.SubWritesDifferenceAndBorrow :=
  runs_of_commit (op := 0x3) rfl fun va vb _ _ => ⟨_, _, trunc16_sub_toNat va vb, hi16_sub_toNat va vb, rfl⟩

/-- Settles O22: the product is its high Word times 65536 plus its low Word. -/
theorem mulWritesBothHalvesOfProduct : Obligations.MulWritesBothHalvesOfProduct := by
  refine runs_of_commit (op := 0x4) rfl fun va vb la u => ⟨_, highProductOf va vb, ?_, rfl⟩
  rw [highProductOf_toNat, trunc16_mul_toNat, Nat.div_add_mod']

/-- Settles O23: the quotient of a Word is no greater than the Word, so it is not cut. -/
theorem divWritesQuotientAndFraction : Obligations.DivWritesQuotientAndFraction := by
  refine runs_of_commit (op := 0x5) rfl fun va vb la u => ⟨_, fractionOf va vb, ?zero, ?nonzero, rfl⟩
  case zero => exact fun hb => ⟨if_pos hb, if_pos hb⟩
  case nonzero =>
    intro hb
    rw [if_neg hb, trunc16_toNat_of_le va (Nat.div_le_self _ _)]
    exact ⟨rfl, fractionOf_toNat va vb⟩

/-- Settles O24: the remainder of a Word is no greater than the Word, so it is not cut. -/
theorem modWritesRemainder : Obligations.ModWritesRemainder := by
  refine runs_of_commit (op := 0x6) rfl fun va vb la u => ⟨_, ?zero, ?nonzero, rfl⟩
  case zero => exact fun hb => if_pos hb
  case nonzero =>
    intro hb
    rw [if_neg hb, trunc16_toNat_of_le va (Nat.mod_le _ _)]

/-- Settles O25: the low and the high Word of the shifted value. -/
theorem shlWritesShiftedOutThenResult : Obligations.ShlWritesShiftedOutThenResult :=
  runs_of_commit (op := 0x7) rfl fun va vb _ _ =>
    ⟨_, _, trunc16_shiftLeft_toNat va vb, shiftedOutLeft_toNat va vb, rfl⟩

/-- Settles O26: the shifted value and its 16-bit fraction. -/
theorem shrWritesShiftedOutThenResult : Obligations.ShrWritesShiftedOutThenResult :=
  runs_of_commit (op := 0x8) rfl fun va vb _ _ =>
    ⟨_, _, trunc16_shiftRight_toNat va vb, shiftedOutRight_toNat va vb, rfl⟩

/-- Settles O27: the bits of the three operations on Words. -/
theorem bitwiseResults : Obligations.BitwiseResults :=
  ⟨runs_of_commit (op := 0x9) rfl fun _ _ _ _ => ⟨_, fun _ => BitVec.getLsbD_and, rfl⟩,
    runs_of_commit (op := 0xA) rfl fun _ _ _ _ => ⟨_, fun _ => BitVec.getLsbD_or, rfl⟩,
    runs_of_commit (op := 0xB) rfl fun _ _ _ _ => ⟨_, fun _ => BitVec.getLsbD_xor, rfl⟩⟩

/-- Settles O28: with O as the destination a commit leaves in O the Word it writes last, the new O of the first four and
the result of the shifts (D11). -/
theorem laterWriteStandsWhenOIsDestination : Obligations.LaterWriteStandsWhenOIsDestination := by
  intro b s hbwf hs
  obtain ⟨lb, u, hb⟩ := resolve_of_wf s hbwf
  refine ⟨lb, u, hb, ?add, ?sub, ?mul, ?div, ?shl, ?shr⟩
  case add => exact ⟨_, exec_basic_of_not_skip (op := 0x2) rfl rfl hb hs, carryOf_toNat _ _⟩
  case sub => exact ⟨_, exec_basic_of_not_skip (op := 0x3) rfl rfl hb hs, hi16_sub_toNat _ _⟩
  case mul => exact ⟨_, exec_basic_of_not_skip (op := 0x4) rfl rfl hb hs, highProductOf_toNat _ _⟩
  case div => exact ⟨_, exec_basic_of_not_skip (op := 0x5) rfl rfl hb hs, fractionOf_toNat _ _⟩
  case shl => exact ⟨_, exec_basic_of_not_skip (op := 0x7) rfl rfl hb hs, trunc16_shiftLeft_toNat _ _⟩
  case shr => exact ⟨_, exec_basic_of_not_skip (op := 0x8) rfl rfl hb hs, trunc16_shiftRight_toNat _ _⟩

end Sys2Proof.Machine
end

section
/-! The conditionals (R200 to R204): what IFE, IFN, IFG and IFB leave when they are executed. -/

namespace Sys2Proof.Machine
open Sys2Proof.Claims

/-- R204: with no skip pending, a skip request leaves its condition in the skip flag. -/
theorem State.commit_skipRequest_of_not_skip {u : State} (hu : u.skip = false) (la : Loc) (p : Bool) :
    u.commit la (.skipRequest p) = { u with skip := p } := by
  rw [State.commit_of_requestsSkip u rfl, hu]
  cases p <;> rfl

/-- A basic instruction whose alu function requests a skip on a condition has every effect that setting the skip flag to
that condition has, whatever the operand values and the state after the resolutions are. -/
theorem runs_of_skipRequest {op : BitVec 4} {mk : Operand → Operand → Instr}
    {effect : Word → Word → Loc → State → State → Prop} {fails : Word → Word → Bool} (hop : basicOf op = some mk)
    (hreq : ∀ va vb, aluOf op va vb = .skipRequest (fails va vb))
    (h : ∀ (va vb : Word) (la : Loc) (u : State), effect va vb la u { u with skip := fails va vb }) : Runs mk effect := by
  intro a b s hawf hbwf hs
  obtain ⟨la, s1, ha⟩ := resolve_of_wf s hawf
  obtain ⟨lb, u, hb⟩ := resolve_of_wf s1 hbwf
  have hu : u.skip = false := by rw [resolve_both_state ha hb]; exact hs
  have hexec := exec_basic_of_not_skip hop ha hb hs
  rw [hreq, State.commit_skipRequest_of_not_skip hu] at hexec
  exact ⟨la, s1, lb, u, _, ha, hb, hexec, h _ _ la u⟩

/-- Settles O30: the skip requests of `aluIfe`, `aluIfn` and `aluIfg` are the three failing conditions. -/
theorem comparisonsSetSkipWhenTheyFail : Obligations.ComparisonsSetSkipWhenTheyFail := by
  refine ⟨?ife, ?ifn, ?ifg⟩
  case ife =>
    refine runs_of_skipRequest (op := 0xC) rfl (fun va vb => ?_) fun _ _ _ _ => rfl
    exact congrArg AluOut.skipRequest (by rw [bne, beq_eq_decide, decide_not])
  case ifn =>
    exact runs_of_skipRequest (op := 0xD) rfl (fun va vb => congrArg AluOut.skipRequest (beq_eq_decide va vb))
      fun _ _ _ _ => rfl
  case ifg => exact runs_of_skipRequest (op := 0xE) rfl (fun _ _ => rfl) fun _ _ _ _ => rfl

/-- C2: two bit vectors share no set bit exactly when their bitwise AND is 0. -/
theorem and_eq_zero_iff_no_shared_bit {w : Nat} (x y : BitVec w) :
    x &&& y = 0 ↔ ∀ k, ¬ (x.getLsbD k = true ∧ y.getLsbD k = true) := by
  constructor
  · intro h k hk
    have hbit : (x &&& y).getLsbD k = true := by simp [hk]
    simp [h] at hbit
  · intro h
    exact BitVec.eq_of_getLsbD_eq fun k _ => by simpa using h k

/-- Settles O31: the skip request of `aluIfb` is that the bitwise AND is 0. -/
theorem bitTestSetsSkipWhenNoBitIsShared : Obligations.BitTestSetsSkipWhenNoBitIsShared :=
  runs_of_skipRequest (op := 0xF) rfl (fun _ _ => rfl) fun va vb _ _ =>
    ⟨rfl, beq_iff_eq.trans (and_eq_zero_iff_no_shared_bit va vb)⟩

end Sys2Proof.Machine
end

section
/-! JSR (R220): what it leaves when it is executed, the return by SET PC, POP (R222), its frame, and the operand forms
that meet the push. -/

namespace Sys2Proof.Machine

/-! ## The executed handler -/

variable (u : State) (lb : Loc)

/-- The return address stands at the new SP, and every other Word is as before. -/
theorem readMem_jsrHandler (k : Word) :
    (jsrHandler lb u).readMem k = if k = u.sp - 1 then u.pc else u.readMem k :=
  Memory.readWord_writeWord u.mem (u.sp - 1) u.pc k

theorem readMem_jsrHandler_same : (jsrHandler lb u).readMem (u.sp - 1) = u.pc := by
  rw [readMem_jsrHandler, if_pos rfl]

/-- A jump through a cell goes to the return address when the push landed on that cell, else to the cell's old Word. -/
theorem jsrHandler_mem_pc (k : Word) : (jsrHandler (.mem k) u).pc = if k = u.sp - 1 then u.pc else u.readMem k :=
  readMem_jsrHandler u (.mem k) k

/-- R26, D6: SP - 1 wraps, but is never SP. -/
theorem word_ne_sub_one (k : Word) : k ≠ k - 1 := by bv_omega

variable {u lb} {b : Operand} {s : State}

/-- R220: a JSR with no skip pending runs its handler on the state that the resolution of b left. -/
theorem exec_jsr_of_not_skip (hb : resolve b s = some (lb, u)) (hs : s.skip = false) :
    exec (.jsr b) s = .next (jsrHandler lb u) := by
  have hu : u.skip = false := by rw [resolve_state hb]; exact hs
  rw [exec_jsr]
  simp [runExtended, hb, skipOr_of_not_skip hu]

/-- Settles O32: the legal b resolves, and `jsrHandler` is the push and the jump that the statement writes out. -/
theorem jsrPushesReturnAddressThenJumps : Obligations.JsrPushesReturnAddressThenJumps := by
  intro b s hbwf hs
  obtain ⟨lb, u, hb⟩ := resolve_of_wf s hbwf
  exact ⟨lb, u, hb, by rw [resolve_state hb], _, rfl, exec_jsr_of_not_skip hb hs⟩

/-! ## The return -/

/-- SET PC, POP with no skip pending jumps to the Word at SP and raises SP by 1. -/
theorem exec_set_pc_pop {t : State} (hs : t.skip = false) :
    exec (.set .pc .pop) t = .next ((t.setSp (t.sp + 1)).setPc (t.readMem t.sp)) :=
  exec_basic_of_not_skip (op := 0x1) (la := .pc) (lb := .mem t.sp) (u := t.setSp (t.sp + 1)) rfl rfl rfl hs

/-- Settles O34: the fetch leaves the pushed return address at SP, and POP raises SP by the 1 that the push took. -/
theorem returnUndoesJsr : Obligations.ReturnUndoesJsr := by
  intro b s hbwf hs
  obtain ⟨lb, u, hb⟩ := resolve_of_wf s hbwf
  have ht : (jsrHandler lb u).advance.skip = false := by
    rw [State.advance_skip, jsrHandler_skip, resolve_state hb]; exact hs
  exact ⟨lb, u, _, _, hb, exec_jsr_of_not_skip hb hs, exec_set_pc_pop ht, readMem_jsrHandler_same u lb,
    BitVec.sub_add_cancel u.sp 1⟩

/-! ## The frame -/

/-- A JSR that goes on was skipped or executed, on the state that the resolution of b left. -/
theorem exec_jsr_next {t : State} (hb : resolve b s = some (lb, u)) (h : exec (.jsr b) s = .next t) :
    (s.skip = true ∧ t = u.suppress) ∨ (s.skip = false ∧ t = jsrHandler lb u) := by
  cases hs : s.skip with
  | true => cases (exec_jsr_of_skip hb hs).symm.trans h; exact .inl ⟨rfl, rfl⟩
  | false => cases (exec_jsr_of_not_skip hb hs).symm.trans h; exact .inr ⟨rfl, rfl⟩

/-- Settles O39: a skipped JSR is the resolution of b, suppressed, and an executed one stores only the Word at SP - 1. -/
theorem jsrFrame : Obligations.JsrFrame := by
  intro b s u t lb hb h
  obtain rfl := resolve_state hb
  obtain ⟨hs, rfl⟩ | ⟨hs, rfl⟩ := exec_jsr_next hb h
  · simp [hs, State.reg]
  · refine ⟨fun _ => rfl, rfl, hs, by simp [hs], by simp [hs], fun n hn => ?_, by simp [hs], rfl, rfl⟩
    exact Memory.readByte_writeWord_ne s.mem (hn hs) _

/-! ## The operand forms that meet the push -/

/-- Settles O33: a form that names a cell jumps to the return address when the push landed on that cell, which it does
for POP, and to the cell's old Word otherwise. -/
theorem jsrCornerCases : Obligations.JsrCornerCases := by
  intro s hs
  refine ⟨?pop, ?peek, ?push, ?sp, ?pc, ?next⟩
  case pop =>
    have hsp : s.sp = s.sp + 1 - 1 := (BitVec.add_sub_cancel s.sp 1).symm
    exact ⟨_, exec_jsr_of_not_skip rfl hs, (jsrHandler_mem_pc _ _).trans (if_pos hsp), hsp.symm,
      (readMem_jsrHandler _ _ _).trans (if_pos hsp)⟩
  case peek =>
    exact ⟨_, exec_jsr_of_not_skip rfl hs, (jsrHandler_mem_pc s s.sp).trans (if_neg (word_ne_sub_one s.sp)), rfl,
      readMem_jsrHandler_same s _⟩
  case push =>
    have hsp : s.sp - 1 - 1 = s.sp - 2 := BitVec.sub_sub s.sp 1 1
    exact ⟨_, exec_jsr_of_not_skip rfl hs, (jsrHandler_mem_pc _ _).trans (if_neg (word_ne_sub_one (s.sp - 1))), hsp,
      hsp ▸ readMem_jsrHandler_same (s.setSp (s.sp - 1)) _⟩
  case sp => exact ⟨_, exec_jsr_of_not_skip rfl hs, rfl, rfl⟩
  case pc => exact ⟨_, exec_jsr_of_not_skip rfl hs, rfl, readMem_jsrHandler_same s _⟩
  case next =>
    have hb : resolve .next s = some (.mem s.pc, s.advance) := rfl
    exact ⟨_, exec_jsr_of_not_skip hb hs, readMem_jsrHandler_same s.advance _,
      (jsrHandler_mem_pc s.advance s.pc).trans (if_congr eq_comm rfl rfl)⟩

end Sys2Proof.Machine
end

section
/-! The exceptions (60_exceptions.md): which words fault and which instructions complete (R240 to R243), the record of a fault
(R245), and the two endings of a run (R257, R275). -/

namespace Sys2Proof.Machine
open Sys2Proof.Claims

/-! ## Completion -/

/-- Settles O35: a legal instruction is what its own encoding decodes to, and no decoded instruction faults. -/
theorem everyLegalInstructionCompletes : Obligations.EveryLegalInstructionCompletes :=
  fun i s hi => exec_decoded_completes s (decodeOfEncodeIsTheInstruction i hi)

theorem runUnknown_ne_refused (w : Word) (b : Operand) (s : State) (q : Refusal) : runUnknown w b s ≠ .refused q := by
  intro h
  obtain ⟨lb, u, -, -, e⟩ | ⟨-, -, e⟩ | ⟨-, e⟩ := runUnknown_cases w b s
  all_goals cases e.symm.trans h

/-- R240: no step is refused, of a running core or of a halted one. -/
theorem step_ne_refused (s : State) (q : Refusal) : step s ≠ .refused q := by
  intro h
  cases hs : s.status with
  | halted r => cases (step_of_halted hs).symm.trans h
  | running =>
    cases hd : decode s.wordAtPc with
    | ok i =>
      obtain ⟨t, e⟩ := exec_decoded_completes s.advance hd
      cases ((step_of_decode_ok hs hd).trans e).symm.trans h
    | error r =>
      rw [step_of_decode_error hs hd] at h
      cases r with
      | invalidOperand field code => cases h
      | unknownOpcode xop b => exact runUnknown_ne_refused _ b _ q h

/-- Settles O47: no step is refused, and `step_fault` lists the faults of a running core. -/
theorem stepEndsInNextOrOneOfTwoFaults : Obligations.StepEndsInNextOrOneOfTwoFaults := by
  intro s hs
  cases h : step s with
  | next t => exact .inl ⟨t, rfl⟩
  | fault f =>
    obtain ⟨-, -, rfl⟩ | ⟨-, rfl⟩ | ⟨-, -, -, rfl⟩ := step_fault hs h
    · exact .inr (.inl ⟨_, rfl⟩)
    · exact .inr (.inl ⟨_, rfl⟩)
    · exact .inr (.inr ⟨_, rfl⟩)
  | refused q => exact absurd h (step_ne_refused s q)

/-! ## Which words fault -/

/-- R241: an operand code that the decoder rejects is raised, skipped or not. -/
theorem step_of_invalid_operand {s : State} {field : OperandField} {code : BitVec 6} (hs : s.status = .running)
    (hd : decode s.wordAtPc = .error (.invalidOperand field code)) : ∃ r, step s = .fault (.invalidOperand r) :=
  ⟨_, step_of_decode_error hs hd⟩

/-- Settles O48: the decoder reports an illegal a of a basic word, or else an illegal b. -/
theorem invalidOperandExactlyOnCode3F : Obligations.InvalidOperandExactlyOnCode3F := by
  intro s hs
  constructor
  · rintro ⟨r, h⟩
    obtain ⟨hop, ha, -⟩ | ⟨hb, -⟩ | ⟨-, -, -, e⟩ := step_fault hs h
    · exact .inl ⟨hop, ha⟩
    · exact .inr hb
    · cases e
  · intro h
    by_cases hA : opOf s.wordAtPc ≠ 0 ∧ aOf s.wordAtPc = 0x3F
    · exact step_of_invalid_operand hs (decode_invalid_a hA.1 hA.2)
    · exact step_of_invalid_operand hs (decode_invalid_b (h.resolve_left hA) (by tauto))

/-- R242: an extended word without a handler whose b is legal is raised when no skip is pending. -/
theorem step_of_unknown_opcode {s : State} {b : Operand} (hs : s.status = .running) (hop : opOf s.wordAtPc = 0)
    (hx : aOf s.wordAtPc ≠ 1) (hbc : Operand.ofCode (bOf s.wordAtPc) = some b) (hskip : s.skip = false) :
    ∃ r, step s = .fault (.unknownOpcode r) := by
  rw [step_of_decode_error hs (decode_unknown hop hx hbc), runRejected]
  obtain ⟨lb, u, -, hskip', -⟩ | ⟨-, -, e⟩ | ⟨hwf, -⟩ := runUnknown_cases s.wordAtPc b s.advance
  · exact absurd (hskip.symm.trans hskip') (by decide)
  · exact ⟨_, e⟩
  · exact absurd (Operand.code_of_ofCode hbc).1 hwf

/-- R221, decision D13 (log 12): with a skip pending it goes on. -/
theorem step_of_skipped_unknown_opcode {s : State} {b : Operand} (hs : s.status = .running) (hop : opOf s.wordAtPc = 0)
    (hx : aOf s.wordAtPc ≠ 1) (hbc : Operand.ofCode (bOf s.wordAtPc) = some b) (hskip : s.skip = true) :
    step s = .next (s.afterOperands s.wordAtPc).suppress := by
  obtain ⟨lb, u, hb⟩ := resolve_of_wf s.advance (Operand.code_of_ofCode hbc).1
  rw [← resolve_extended_state hop hbc hb]
  exact step_eq_next_iff.2 ⟨hs, .skippedUnknown hop hx hbc hb hskip⟩

/-- Settles O49: an illegal b would raise InvalidOperand in place of UnknownOpcode, and a legal one resolves, so that the
skip flag decides. -/
theorem unknownOpcodeExactlyWhenExecuted : Obligations.UnknownOpcodeExactlyWhenExecuted := by
  intro s hs
  refine ⟨⟨?raised, ?raises⟩, ?passes⟩
  case raised =>
    rintro ⟨r, h⟩
    have hb : bOf s.wordAtPc ≠ 0x3F := fun hb => by
      obtain ⟨q, e⟩ := (invalidOperandExactlyOnCode3F s hs).2 (.inr hb)
      cases e.symm.trans h
    obtain ⟨-, -, e⟩ | ⟨-, e⟩ | ⟨hop, hx, hskip, -⟩ := step_fault hs h
    · cases e
    · cases e
    · exact ⟨hop, hx, hb, hskip⟩
  case raises =>
    rintro ⟨hop, hx, hb, hskip⟩
    obtain ⟨b, hbc⟩ := Option.ne_none_iff_exists'.1 (mt Operand.ofCode_eq_none.1 hb)
    exact step_of_unknown_opcode hs hop hx hbc hskip
  case passes =>
    rintro ⟨hop, hx, hb, hskip⟩
    obtain ⟨b, hbc⟩ := Option.ne_none_iff_exists'.1 (mt Operand.ofCode_eq_none.1 hb)
    exact step_of_skipped_unknown_opcode hs hop hx hbc hskip

/-! ## The record -/

/-- R80: the extended opcode has six bits, so that bit 7 is free for the mark. -/
theorem extendedKey_toNat (xop : BitVec 6) : (extendedKey xop).toNat = 0x80 + xop.toNat := by
  revert xop; decide

/-- R247: a word whose illegal b is reported has no illegal a that is an operand. -/
theorem aOf_legal_of_b_reported {s : State} {k : Word} {code : BitVec 6} (hs : s.status = .running)
    (h : step s = .fault (.invalidOperand (invalidOperandRecord k s.wordAtPc .b code))) :
    opOf s.wordAtPc = 0 ∨ aOf s.wordAtPc ≠ 0x3F := by
  by_contra hA
  obtain ⟨hop, ha⟩ := not_or.1 hA
  have e := step_of_decode_error hs (decode_invalid_a hop (not_not.1 ha))
  cases e.symm.trans h

/-- Settles O50: the record of each fault is built from PC and the word there. -/
theorem faultRecordNamesTheInstruction : Obligations.FaultRecordNamesTheInstruction := by
  intro s f hs h
  have hwf := step_fault_record_wf hs h
  obtain ⟨hop, ha, rfl⟩ | ⟨hb, rfl⟩ | ⟨hop, hx, -, rfl⟩ := step_fault hs h
  · refine ⟨rfl, rfl, hwf, ?_, by simp⟩
    rintro r ⟨⟩
    exact ⟨rfl, .inl (congrArg _ ha)⟩
  · refine ⟨rfl, rfl, hwf, ?_, by simp⟩
    rintro r ⟨⟩
    exact ⟨rfl, .inr ⟨congrArg _ hb, aOf_legal_of_b_reported hs h⟩⟩
  · refine ⟨rfl, rfl, hwf, by simp, ?_⟩
    rintro r ⟨⟩
    exact ⟨rfl, _, rfl, extendedKey_toNat _⟩

/-! ## The endings of a run -/

/-- One more step of a run, by the outcome of its first one. -/
theorem driveFrom_succ_of_next {s t : State} (h : step s = .next t) (k n : Nat) :
    driveFrom k (n + 1) s = driveFrom (k + 1) n t := by
  simp [driveFrom, h]

theorem driveFrom_succ_of_fault {s : State} {f : Fault} (h : step s = .fault f) (k n : Nat) :
    driveFrom k (n + 1) s = .haltedAt (k + 1) f.record := by
  simp [driveFrom, h]

theorem core_run_succ_of_next {s t : State} (h : step s = .next t) (n : Nat) :
    core.run (n + 1) s = core.run n t := by
  simp [Host.Core.run, show core.step s = .next t from h]

theorem core_run_succ_of_fault {s : State} {f : Fault} (h : step s = .fault f) (n : Nat) :
    core.run (n + 1) s = .fault f := by
  simp [Host.Core.run, show core.step s = .fault f from h]

/-- The driver makes all its steps exactly when the host's run does, whatever number it counts from. -/
theorem driveFrom_eq_ran_iff (k n : Nat) (s t : State) : driveFrom k n s = .ran t ↔ core.run n s = .next t := by
  induction n generalizing k s with
  | zero => exact ⟨fun h => by cases h; rfl, fun h => by cases h; rfl⟩
  | succ n ih =>
    cases h : step s with
    | next u => rw [driveFrom_succ_of_next h, core_run_succ_of_next h, ih]
    | fault f => rw [driveFrom_succ_of_fault h, core_run_succ_of_fault h]; exact iff_of_false nofun nofun
    | refused q => exact absurd h (step_ne_refused s q)

/-- A driver that halts has made steps that went on, fewer than it was asked for, and then one that faulted. -/
theorem driveFrom_eq_haltedAt {j k n : Nat} {s : State} {r : FaultRecord} (h : driveFrom j n s = .haltedAt k r) :
    ∃ m t f, m < n ∧ k = j + m + 1 ∧ core.run m s = .next t ∧ step t = .fault f ∧ f.record = r := by
  induction n generalizing j s with
  | zero => cases h
  | succ n ih =>
    cases hstep : step s with
    | next u =>
      rw [driveFrom_succ_of_next hstep] at h
      obtain ⟨m, t, f, hm, hk, hrun, hf, hr⟩ := ih h
      exact ⟨m + 1, t, f, by omega, by omega, (core_run_succ_of_next hstep m).trans hrun, hf, hr⟩
    | fault f =>
      rw [driveFrom_succ_of_fault hstep] at h
      cases h
      exact ⟨0, s, f, n.succ_pos, rfl, rfl, hstep, rfl⟩
    | refused q => exact absurd hstep (step_ne_refused s q)

theorem driveFrom_ne_refusedAt (j n k : Nat) (s : State) (q : Refusal) : driveFrom j n s ≠ .refusedAt k q := by
  induction n generalizing j s with
  | zero => exact nofun
  | succ n ih =>
    cases h : step s with
    | next u => rw [driveFrom_succ_of_next h]; exact ih (j + 1) u
    | fault f => rw [driveFrom_succ_of_fault h]; exact nofun
    | refused q => exact absurd h (step_ne_refused s q)

/-- Settles O55: the three endings of `driveFrom`, counted from 0. -/
theorem driverTellsTheTwoEndingsApart : Obligations.DriverTellsTheTwoEndingsApart := by
  intro n s
  refine ⟨driveFrom_eq_ran_iff 0 n s, fun k r h => ?_, fun k q => driveFrom_ne_refusedAt 0 n k s q⟩
  obtain ⟨m, t, f, hm, hk, hrun, hf, hr⟩ := driveFrom_eq_haltedAt h
  obtain rfl : m = k - 1 := by omega
  exact ⟨by omega, by omega, t, f, (driveFrom_eq_ran_iff 0 _ s t).2 hrun, hf, hr⟩

end Sys2Proof.Machine
end

section
/-! Loading an image (R271) and the self-loop SUB PC, 1 (R275). -/

namespace Sys2Proof.Machine

/-! ## The image load -/

/-- R271: load answers exactly on the images that fit in memory, and then it writes memory alone. -/
theorem load_eq_next_iff {img : List Word} {s t : State} :
    load img s = .next t ↔ img.length ≤ Config.memWords ∧ t = { s with mem := s.mem.writeImage 0 img } := by
  unfold load
  split
  next h => simp [h, eq_comm]
  next h => simp [h]

/-- Settles O60: the image is written Word by Word, and the status is left alone. -/
theorem loadKeepsTheInvariant : Obligations.LoadKeepsTheInvariant := by
  intro img s t ⟨hm, hst⟩ h
  obtain ⟨-, rfl⟩ := load_eq_next_iff.1 h
  exact ⟨Memory.writeImage_wf img 0 hm, hst⟩

/-- Settles O54: the image does not fit, and the refusal tells its length. -/
theorem longImageIsRefused : Obligations.LongImageIsRefused :=
  fun img _ h => ⟨.imageTooLong img.length, if_neg (not_le.2 h)⟩

/-! ## The self-loop -/

/-- R8: the low Word of a difference of Words is their difference modulo 65536. -/
theorem trunc16_sub (x y : Word) : trunc16 ((x.toNat : Int) - y.toNat) = x - y := by
  apply BitVec.eq_of_toNat_eq
  rw [trunc16_sub_toNat, BitVec.toNat_sub, Nat.add_comm, Nat.sub_add_comm y.isLt.le]

/-- R162: a difference borrows exactly when it is negative. -/
theorem borrowOf_eq (x y : Word) : borrowOf x y = if x < y then 0xFFFF else 0 := by
  apply BitVec.eq_of_toNat_eq
  rw [borrowOf, hi16_sub_toNat, apply_ite BitVec.toNat]
  rfl

/-- R162: taking 1 from the Word after x gives x back, and borrows only when x is the last Word, whose next one is 0. -/
theorem aluSub_add_one_one (x : Word) :
    aluSub (x + 1) 1 = .resultThenO x (if x = 0xFFFF then 0xFFFF else 0) := by
  have hborrow : x + 1 < 1 ↔ x = 0xFFFF := by bv_omega
  rw [aluSub, trunc16_sub, borrowOf_eq, BitVec.add_sub_cancel]
  simp only [hborrow]

/-- What n steps of SUB PC, 1 make of a state, for n ≥ 1. `step_of_selfLoop` ties it to step. -/
def State.afterSelfLoop (s : State) (n : Nat) : State :=
  { s with cycles := s.cycles + n, o := if s.pc = 0xFFFF then 0xFFFF else 0 }

theorem State.afterSelfLoop_afterSelfLoop (s : State) (m n : Nat) :
    (s.afterSelfLoop m).afterSelfLoop n = s.afterSelfLoop (m + n) := by
  simp [State.afterSelfLoop, Nat.add_assoc]

/-- R275: a step of SUB PC, 1 puts PC back where the fetch found it. -/
theorem step_of_selfLoop {s : State} (hs : s.status = .running) (hskip : s.skip = false) (hw : s.wordAtPc = 0x85C3) :
    step s = .next (s.afterSelfLoop 1) := by
  have hd : decode s.wordAtPc = .ok (.sub .pc (.lit 1)) := by rw [hw]; rfl
  have he : exec (.sub .pc (.lit 1)) s.advance = .next (s.advance.commit .pc (aluSub (s.pc + 1) 1)) :=
    exec_basic_of_not_skip (op := 0x3) (mk := .sub) (la := .pc) (lb := .lit 1) rfl rfl rfl hskip
  rw [step_of_decode_ok hs hd, he, aluSub_add_one_one]
  rfl

/-- R275: a run of SUB PC, 1, whatever number the driver counts from. Each step leaves the status, the skip flag and the
word at PC as it found them, so the next one is the same step. -/
theorem driveFrom_of_selfLoop {s : State} (k n : Nat) (hs : s.status = .running) (hskip : s.skip = false)
    (hw : s.wordAtPc = 0x85C3) : driveFrom k (n + 1) s = .ran (s.afterSelfLoop (n + 1)) := by
  induction n generalizing k s with
  | zero => exact driveFrom_succ_of_next (step_of_selfLoop hs hskip hw) k 0
  | succ n ih =>
    rw [driveFrom_succ_of_next (step_of_selfLoop hs hskip hw), ih (s := s.afterSelfLoop 1) (k + 1) hs hskip hw,
      State.afterSelfLoop_afterSelfLoop, Nat.add_comm 1]

/-- Settles O56: a run of `drive` counts from 0. -/
theorem selfLoopStaysInPlace : Obligations.SelfLoopStaysInPlace :=
  fun _ n => driveFrom_of_selfLoop 0 n

end Sys2Proof.Machine
end

section
/-! A canonical memory is determined by its Words (20_memory.md section 1): each cell inside the memory is the low or the
high half of a Word (R50), and no cell outside it is listed. -/

namespace Sys2Proof.Machine

/-! ## The cells of a Word read -/

theorem Memory.lowByte_readWord (m : Memory) (k : Word) : lowByte (m.readWord k) = m.readByte (2 * k.toNat) :=
  BitVec.extractLsb'_append_eq_right

theorem Memory.highByte_readWord (m : Memory) (k : Word) : highByte (m.readWord k) = m.readByte (2 * k.toNat + 1) :=
  BitVec.extractLsb'_append_eq_left

/-- R50: a cell outside the memory reads as an unlisted one. -/
theorem Memory.readByte_of_memWords_le {m : Memory} (hm : m.wf) {i : Nat} (hi : 2 * Config.memWords ≤ i) :
    m.readByte i = unlistedByte := by
  by_contra hne
  obtain ⟨hlt, -⟩ := hm.2 _ (Memory.mem_of_readByte_ne hne)
  exact absurd hlt hi.not_gt

/-! ## Words that read alike -/

/-- R50: cell i inside the memory is half of the Word at i / 2, the low half exactly when i is even. -/
theorem Memory.readByte_eq_of_readWord_eq {m n : Memory} (h : ∀ k : Word, m.readWord k = n.readWord k) {i : Nat}
    (hi : i < 2 * Config.memWords) : m.readByte i = n.readByte i := by
  have hk : (BitVec.ofNat 16 (i / 2)).toNat = i / 2 := by
    rw [Config.memWords] at hi
    rw [BitVec.toNat_ofNat, Nat.mod_eq_of_lt (by omega)]
  have hw := h (BitVec.ofNat 16 (i / 2))
  obtain heven | hodd := Nat.even_or_odd i
  · have hlow := congrArg lowByte hw
    rwa [Memory.lowByte_readWord, Memory.lowByte_readWord, hk, Nat.two_mul_div_two_of_even heven] at hlow
  · have hhigh := congrArg highByte hw
    rwa [Memory.highByte_readWord, Memory.highByte_readWord, hk, Nat.two_mul_div_two_add_one_of_odd hodd] at hhigh

/-- Settles O18: the memories read alike at every cell, inside by their Words and outside because neither lists a cell
there, so they have the same entries in the same order. -/
theorem canonicalMemoryIsUnique : Obligations.CanonicalMemoryIsUnique := by
  intro m n hm hn h
  refine Memory.eq_of_readByte_eq hm hn fun i => ?_
  obtain hin | hout := lt_or_ge i (2 * Config.memWords)
  · exact Memory.readByte_eq_of_readWord_eq h hin
  · rw [Memory.readByte_of_memWords_le hm hout, Memory.readByte_of_memWords_le hn hout]

end Sys2Proof.Machine
end
